-- ==== Sys2Proof/Word.lean ====
section
/-! DEFINITION. Word.lean: the three unsigned value types of the spec (00_scope.md section 7, "Types").
There is no signed quantity in this hardware. -/

namespace Sys2Proof

/-- An encoded transaction word: an unsigned 32-bit number, never a sequence of bytes (R27, R39). -/
abbrev Word := BitVec 32

/-- A Memory Store address: an unsigned 15-bit number, `0 .. 0x7FFF` (R23). -/
abbrev Addr := BitVec 15

/-- A memory cell, a data field or a response byte: an unsigned 8-bit number (R9, R11). -/
abbrev Byte := BitVec 8

end Sys2Proof
end

