-- ==== Sys2Proof/Config.lean ====
section
/-! DEFINITION. Config.lean: what is fixed for the machine and is not state: the sizes and positions of R4,
the open parameters of R5, and the one free value of the model (R80). An `opaque` constant has no body, so no
proof can see its value and every claim holds for every value of it. -/

namespace Sys2Proof.Config

/-- `MEM_SIZE`: the number of cells of the Memory Store (R4). -/
abbrev memSize : Nat := 32768
/-- `ADDR_W` (R4). -/
abbrev addrW : Nat := 15
/-- `ADDR_LSB`: position of the address field's least significant bit (R4). -/
abbrev addrLsb : Nat := 8
/-- `ADDR_MASK`: the mask applied after the shift (R4). -/
abbrev addrMask : Word := 0x7FFF#32
/-- `DATA_W` (R4). -/
abbrev dataW : Nat := 8
/-- `DATA_LSB`: position of the data field's least significant bit (R4). -/
abbrev dataLsb : Nat := 23
/-- `DATA_MASK`: the mask applied after the shift (R4). -/
abbrev dataMask : Word := 0xFF#32
/-- `DIR_BIT`: position of the direction bit `/R` (R4). -/
abbrev dirBit : Nat := 2
/-- `NW_BIT`: position of the informational bit `/W` (R4). -/
abbrev nwBit : Nat := 3
/-- `NCS_BIT`: position of the informational bit `/CS` (R4). -/
abbrev ncsBit : Nat := 4
/-- `DONT_CARE_MASK`: bits 0, 1, 3, 4, 5, 6, 7 and 31, which no rule reads (R4). -/
abbrev dontCareMask : Word := 0x800000FB#32
/-- The complement of `DONT_CARE_MASK`: every bit that some rule reads (R57, R59). -/
abbrev careMask : Word := 0x7FFFFF04#32

/-- One less than `RCH_DEPTH`, an open parameter (R5, D4; log entry 2). -/
opaque rchDepthLessOne : Nat
/-- `RCH_DEPTH`: how many bytes the response channel can hold, at least 1 (R5). -/
def rchDepth : Nat := rchDepthLessOne + 1

/-- One less than `WCH_DEPTH` where the word channel is bounded, an open parameter (R5, D3; log entry 2). -/
opaque wchDepthLessOne : Nat
/-- Whether the word channel is unbounded (R5: "possibly unbounded"; log entry 2). -/
opaque wchUnbounded : Bool
/-- `WCH_DEPTH` of a bounded word channel: how many words it can hold, at least 1 (R5). -/
def wchDepth : Nat := wchDepthLessOne + 1

/-- `DEBUG`: whether the non-core debug stream is compiled in; the spec's model takes it as false
(R5, R89, D19; log entry 12). -/
def debug : Bool := false

/-- FREE VALUE (R80, D4; log entry 3): what the response channel holds after a send that found no room. The spec
leaves it unspecified. The argument is the counter `State.freeIdx`, so every overrun has a value of its own. -/
opaque overrunRch : Nat → List Byte

end Sys2Proof.Config
end

