-- ==== Sys2Proof/Syntax.lean ====
section
/-! DEFINITION. Syntax.lean: the transactions, the "instructions" of this hardware: one constructor for each of
the two rows of the opcode table (R41). -/

namespace Sys2Proof

/-- A decoded transaction. There is no third one (R41, R42). -/
inductive Instr where
  /-- READ (R64): its one operand is the address. The data field of the word is ignored (R45; log entry 15). -/
  | read (address : Addr)
  /-- WRITE (R65): its operands are the address and the data byte. -/
  | write (address : Addr) (data : Byte)
deriving DecidableEq, Repr

end Sys2Proof
end

