-- ==== Sys2Proof/WellFormed.lean ====
section
/-! DEFINITION. WellFormed.lean: well-formedness. A transaction's operands are bounded by their types, as the
decoder's masks bound them (R54), so every `Instr` is well-formed; what can be ill-formed is a line of the
textual notation of R48, whose numerals are plain numbers. -/

namespace Sys2Proof

/-- The operands of a transaction lie in `0 .. 32767` and `0 .. 255` (R54). True of every `Instr`. -/
def Instr.wellFormed : Instr → Bool
  | .read a => decide (a.toNat < Config.memSize)
  | .write a d => decide (a.toNat < Config.memSize) && decide (d.toNat < 2 ^ Config.dataW)

/-- One line of the spec's notation for a sequence of transactions (R48, D11). -/
inductive Line where
  /-- `RD <addr>` -/
  | rd (addr : Nat)
  /-- `WR <addr>, <byte>` -/
  | wr (addr byte : Nat)
  /-- `.word <w>`: any 32-bit value as it stands -/
  | raw (w : Nat)
deriving DecidableEq, Repr

/-- R48: `<addr>` must be in `0 .. 0x7FFF` and `<byte>` in `0 .. 0xFF`; `<w>` is a 32-bit value. -/
def Line.wellFormed : Line → Bool
  | .rd a => decide (a < Config.memSize)
  | .wr a b => decide (a < Config.memSize) && decide (b < 2 ^ Config.dataW)
  | .raw w => decide (w < 2 ^ 32)

end Sys2Proof
end

