-- ==== Sys2Proof/Decode.lean ====
section
/-! DEFINITION. Decode.lean: the Transaction Decoder (40_decoder.md) and, after it, the reference encoder
(30_encoding.md section 5). Both are written from the positions of R4, stated once in Config.lean (R60). The
decoder is total and has no "invalid" answer (R42, R54). -/

namespace Sys2Proof

/-- The decoder's three outputs (R50). They are combinational values of the current word, not state (R13). -/
structure Fields where
  address : Addr
  data : Byte
  isWrite : Bool
deriving DecidableEq, Repr

/-- R51: `address = (word >> 8) & 0x7FFF`. -/
def addressOf (w : Word) : Addr := ((w >>> Config.addrLsb) &&& Config.addrMask).setWidth 15

/-- R52: `data = (word >> 23) & 0xFF`, produced for every word, READ or WRITE. -/
def dataOf (w : Word) : Byte := ((w >>> Config.dataLsb) &&& Config.dataMask).setWidth 8

/-- R53: `isWrite = (word & 0b100) != 0`. -/
def isWriteOf (w : Word) : Bool := (w &&& (1#32 <<< Config.dirBit)) != 0#32

/-- R50: the Transaction Decoder. It inspects no other bit (R55). -/
def decodeFields (w : Word) : Fields :=
  { address := addressOf w, data := dataOf w, isWrite := isWriteOf w }

/-- The transaction a decoded triple selects: bit 2 alone decides, the read case tested first (R41, R67). -/
def Fields.toInstr (f : Fields) : Instr :=
  match f.isWrite with
  | false => .read f.address
  | true => .write f.address f.data

/-- The transaction a word stands for. Every word is one (R42). -/
def decode (w : Word) : Instr := (decodeFields w).toInstr

/-- R47: the reference encoder `Encode(a, d, wr)`. Each field is reduced modulo its width before it is placed, and
every don't-care bit is 0 (D6, D7; log entry 16). -/
def encodeFields (a d : Nat) (wr : Bool) : Word :=
  ((BitVec.ofNat Config.addrW a).setWidth 32 <<< Config.addrLsb)
    ||| ((BitVec.ofNat Config.dataW d).setWidth 32 <<< Config.dataLsb)
    ||| (if wr then 1#32 <<< Config.dirBit else 0#32)

/-- R47: the general encoder `EncodeX(a, d, wr, o)`, which takes the don't-care bits from `o`. -/
def encodeFieldsX (a d : Nat) (wr : Bool) (o : Word) : Word :=
  encodeFields a d wr ||| (o &&& Config.dontCareMask)

/-- The canonical word of a transaction: `Encode` of its fields, the data field of a READ being 0 (R47, R48). -/
def encode : Instr → Word
  | .read a => encodeFields a.toNat 0 false
  | .write a d => encodeFields a.toNat d.toNat true

/-- The word a line of the notation stands for; an ill-formed line stands for none (R48). -/
def Line.word? (l : Line) : Option Word :=
  if l.wellFormed then
    match l with
    | .rd a => some (encodeFields a 0 false)
    | .wr a b => some (encodeFields a b true)
    | .raw w => some (BitVec.ofNat 32 w)
  else none

/-- The word whose low `nbits` bits are those of `w` and whose other bits are 0 (log entry 1). -/
def tableWord (nbits w : Nat) : Word := BitVec.ofNat 32 (w % 2 ^ nbits)

/-- The transaction the decoder reads from a table row's bits. A word is one 32-bit number (R39), so the table's bit
numbering is the word's own; a bit string of more than 32 bits is no word of this hardware (log entry 1). -/
def decodeTableWord (nbits w : Nat) : Option Instr :=
  if nbits ≤ 32 then some (decode (tableWord nbits w)) else none

end Sys2Proof
end

