-- ==== Sys2Proof/Machine/State.lean ====
section
/-! DEFINITION. Machine/State.lean: the state of the system as plain data (10_state.md), the two ways a step could stop,
and the state right after reset. -/

namespace Sys2Proof.Machine

/-- No fault exists: every operation is total, and the CORE raises no exception of any kind (R78). The type is
therefore empty, nobody raises one, and this is exact (neither safe nor unsafe). The spec's own `ResponseOverrun`
(R80) is not a stop but a sticky record, the field `State.overrun` (log entry 3). -/
inductive Fault where
deriving DecidableEq, Repr

/-- Why a step could have no meaning. -/
inductive Refusal where
  /-- The instruction has no meaning in the model yet. No arm of `exec` raises it: both transactions have their
  meaning. Safe. -/
  | notModelled (mnemonic : String)
deriving DecidableEq, Repr

/-- The control state of the Dispatch Loop (R12). -/
inductive Ctrl where
  /-- from reset until the startup fill is complete; no word is serviced -/
  | init
  /-- waiting for the next word -/
  | idle
  /-- servicing a READ; never seen between two steps, since a service is one step (R61) -/
  | read
  /-- servicing a WRITE; never seen between two steps -/
  | write
deriving DecidableEq, Repr

/-- One move of one of the three agents of R6. -/
inductive Turn where
  /-- the Dispatch Loop moves: it fills the memory, services the head of the word channel, or waits -/
  | core
  /-- the Bus Sampler delivers a word (R87) -/
  | deliver (w : Word)
  /-- the Bus Sampler takes a response byte (R87) -/
  | take
  /-- the reset source resets the whole device (R87) -/
  | reset
deriving DecidableEq, Repr

/-- The Memory Store as data: the cells that do not hold the startup pattern, addresses strictly rising. An unlisted
address reads as the startup pattern of R19 (Machine/Ops.lean). -/
abbrev Memory := List Host.Cell

/-- The startup pattern in every cell (R19): nothing is listed. -/
def Memory.filled : Memory := []

/-- The state of the system: the four items of R8, the two records R11 and R80 keep beside the response channel, and
two fields of the model's own. There is no register, program counter, flag or control register (R13 to R16). -/
structure State where
  /-- `mem`, the Memory Store (R9) -/
  mem : Memory
  /-- `wch`, the word channel, head first (R10) -/
  wch : List Word
  /-- `rch`, the response channel, head first (R11) -/
  rch : List Byte
  /-- `ctrl`, the phase of the Dispatch Loop (R12) -/
  ctrl : Ctrl
  /-- `resp`, the response trace: all bytes sent since reset, oldest first, never shortened (R11) -/
  resp : List Byte
  /-- whether a `ResponseOverrun` has been recorded since reset; it is never cleared short of reset (R80, R94) -/
  overrun : Bool
  /-- MODEL'S OWN (log entry 5): whose move comes next, for as many moves as are listed; when none is listed the
  Dispatch Loop moves -/
  turns : List Turn
  /-- MODEL'S OWN (log entry 4): how many free values have been used -/
  freeIdx : Nat
deriving DecidableEq, Repr

/-- The machine right after reset: the control state is `Init` (R20), every cell counts as the startup pattern (R19), the
channels and the trace are empty and no overrun is recorded (R21, R94; log entries 4, 5, 8 and 9). -/
def State.reset : State where
  mem := Memory.filled
  wch := []
  rch := []
  ctrl := .init
  resp := []
  overrun := false
  turns := []
  freeIdx := 0

end Sys2Proof.Machine
end

