-- ==== Sys2Proof/Machine/Ops.lean ====
section
/-! DEFINITION. Machine/Ops.lean: the named operations over memory, channels and control state, which every move of
the machine is made of. This hardware takes no exception and returns from none (R78, R83, R84); what stands in that
place is the record of a response overrun (R80). -/

namespace Sys2Proof.Machine

/-- R19: the startup pattern of cell `i`, in the form of section 3 of the source (90_conflicts.md C1). -/
def fill (i : Nat) : Byte := BitVec.ofNat 8 (((i &&& 0xFF) + (i >>> 8)) % 256)

/-- The value listed for address `k`, if one is. -/
def Memory.lookup (m : Memory) (k : Nat) : Option Byte :=
  match m with
  | [] => none
  | c :: m => if c.1 = k then some c.2 else Memory.lookup m k

/-- List value `v` for address `k`, in the place the rising order gives it. -/
def Memory.insert (m : Memory) (k : Nat) (v : Byte) : Memory :=
  match m with
  | [] => [(k, v)]
  | c :: m =>
    if k < c.1 then (k, v) :: c :: m
    else if c.1 = k then (k, v) :: m
    else c :: Memory.insert m k v

/-- List nothing for address `k`. -/
def Memory.erase (m : Memory) (k : Nat) : Memory :=
  match m with
  | [] => []
  | c :: m => if c.1 = k then Memory.erase m k else c :: Memory.erase m k

/-- R24: `MemRead(a, 1)`. A cell never written holds the startup pattern (R9). -/
def Memory.read (m : Memory) (a : Addr) : Byte := (m.lookup a.toNat).getD (fill a.toNat)

/-- R25: `MemWrite(a, 1, v)`. Writing the value an unlisted cell reads as removes the listing. -/
def Memory.write (m : Memory) (a : Addr) (v : Byte) : Memory :=
  if v = fill a.toNat then m.erase a.toNat else m.insert a.toNat v

/-- The canonical form of a memory: addresses strictly rising and inside the address space, and no listed cell equal to
what an unlisted one reads as. -/
abbrev Memory.wf (m : Memory) : Prop :=
  m.Pairwise (fun c d => c.1 < d.1) ∧ ∀ c ∈ m, c.1 < Config.memSize ∧ c.2 ≠ fill c.1

/-- R92: the startup fill as writes of the pattern, one for each address of `order`. The order cannot be observed
(D17). -/
def Memory.fillCells (order : List Addr) (m : Memory) : Memory :=
  order.foldl (fun m a => m.write a (fill a.toNat)) m

/-- Whether a response channel that holds `n` bytes has room for one more: `n < RCH_DEPTH`. An empty one always has,
since the depth is at least 1 (R5). -/
def rchHasRoom (n : Nat) : Bool := n == 0 || decide (n < Config.rchDepth)

/-- Whether a word channel that holds `n` words has room for one more: it is unbounded or `n < WCH_DEPTH` (R5, D3). -/
def wchHasRoom (n : Nat) : Bool := n == 0 || Config.wchUnbounded || decide (n < Config.wchDepth)

/-- Change the control state (R12). -/
def State.setCtrl (c : Ctrl) (s : State) : State := { s with ctrl := c }

/-- Replace the Memory Store's contents. -/
def State.setMem (m : Memory) (s : State) : State := { s with mem := m }

/-- `WRecv()` (R62): remove and return the head of the word channel. Nothing is received from an empty one. -/
def State.wrecv (s : State) : Option (Word × State) :=
  match s.wch with
  | [] => none
  | w :: ws => some (w, { s with wch := ws })

/-- R80, D4: record `ResponseOverrun`. What the response channel then holds is a free value, within its capacity
(log entry 3). -/
def State.recordOverrun (s : State) : State :=
  { s with
    overrun := true
    rch := (Config.overrunRch s.freeIdx).take Config.rchDepth
    freeIdx := s.freeIdx + 1 }

/-- `RSend(b)` (R68): append to the response channel and to the trace, never waiting. A send that finds no room is
recorded as an overrun (R80). -/
def State.rsend (b : Byte) (s : State) : State :=
  let sent := { s with resp := s.resp ++ [b] }
  if rchHasRoom s.rch.length then { sent with rch := s.rch ++ [b] } else sent.recordOverrun

/-- R92: complete the startup fill, in one step, and go to `Idle`. -/
def State.initialise (s : State) : State := (s.setMem Memory.filled).setCtrl .idle

/-- R87: the Bus Sampler delivers a word, if the word channel has room (D3; log entry 6). -/
def State.deliver (w : Word) (s : State) : State :=
  if wchHasRoom s.wch.length then { s with wch := s.wch ++ [w] } else s

/-- R87: the Bus Sampler takes the head of the response channel, if there is one (log entry 6). -/
def State.takeResponse (s : State) : State := { s with rch := s.rch.tail }

/-- R91, R92, R94: reset of the whole device. Only the model's own two fields are kept (log entries 4, 5 and 10). -/
def State.resetDevice (s : State) : State :=
  { State.reset with turns := s.turns, freeIdx := s.freeIdx }

end Sys2Proof.Machine
end

