-- ==== Sys2Proof/Machine/Flags.lean ====
section
/-! DEFINITION. Machine/Flags.lean: this hardware has no flag, condition code or status bit (R15). What looks like flags
are bits of the incoming word; the two informational ones are named here for the debug observer, and no rule of the
CORE reads them (R44, R55, D8). -/

namespace Sys2Proof.Machine

/-- `nW(word) = word[3]`, the informational write-strobe bit (R40, D8). -/
def nW (w : Word) : Bool := w.getLsbD Config.nwBit

/-- `nCS(word) = word[4]`, the informational chip-select bit (R40, D8). It is no gate (R72). -/
def nCS (w : Word) : Bool := w.getLsbD Config.ncsBit

end Sys2Proof.Machine
end

