-- ==== Sys2Proof/Machine/Operands.lean ====
section
/-! DEFINITION. Machine/Operands.lean: the paths an operand takes to the Memory Store, under the commissioner's names: the
address multiplexer (R73) and the read/write arbiter (R74), both drawn by decision D16. Neither keeps state, and there
is one operand form only: an absolute address from the word, and a data byte (30_encoding.md section 4). -/

namespace Sys2Proof.Machine

/-- R74: which path a service enables; exactly one of the two. -/
structure Path where
  readPath : Bool
  writePath : Bool
deriving DecidableEq, Repr

/-- R74: the read/write arbiter, a selector on `isWrite`. -/
def arbiter (isWrite : Bool) : Path := { readPath := !isWrite, writePath := isWrite }

/-- R73: the address multiplexer: the fill index during `Init`, the decoded address during a service. While the loop is
idle the output is of no consequence (log entry 18). -/
def addressMux (c : Ctrl) (fillIndex decoded : Addr) : Addr :=
  match c with
  | .init => fillIndex
  | .idle => decoded
  | .read => decoded
  | .write => decoded

/-- R74: the write enable of the memory: driven by the fill during `Init`, by the arbiter during a service, and off while
the loop is idle. -/
def writeEnable (c : Ctrl) (isWrite : Bool) : Bool :=
  match c with
  | .init => true
  | .idle => false
  | .read => (arbiter isWrite).writePath
  | .write => (arbiter isWrite).writePath

/-- R73, R74: the write data of the memory: the startup pattern during `Init`, else the decoded data. -/
def writeData (c : Ctrl) (fillIndex : Addr) (data : Byte) : Byte :=
  match c with
  | .init => fill fillIndex.toNat
  | .idle => data
  | .read => data
  | .write => data

end Sys2Proof.Machine
end

