-- ==== Sys2Proof/Machine/Transactions.lean ====
section
/-! DEFINITION. Machine/Transactions.lean: the meanings of the two transactions (41_dispatch.md), each from the receipt of
its word to the return to `Idle` (R61, R66). -/

namespace Sys2Proof.Machine

/-- READ (R64): fetch the addressed byte and send it. The memory is unchanged. -/
def execRead (address : Addr) (s : State) : Host.Outcome State Fault Refusal :=
  let s := s.setCtrl .read
  let b := s.mem.read address
  .next ((s.rsend b).setCtrl .idle)

/-- WRITE (R65): store the data byte at the address. Nothing is sent. -/
def execWrite (address : Addr) (data : Byte) (s : State) : Host.Outcome State Fault Refusal :=
  let s := s.setCtrl .write
  .next ((s.setMem (s.mem.write address data)).setCtrl .idle)

end Sys2Proof.Machine
end

