-- ==== Sys2Proof/Machine/Dispatch.lean ====
section
/-! DEFINITION. Machine/Dispatch.lean: the meaning of a decoded transaction, one arm per constructor (R41). -/

namespace Sys2Proof.Machine

def exec (i : Instr) (s : State) : Host.Outcome State Fault Refusal :=
  match i with
  | .read address => Sys2Proof.Machine.execRead address s
  | .write address data => Sys2Proof.Machine.execWrite address data s

end Sys2Proof.Machine
end

