-- ==== Sys2Proof/Machine/Service.lean ====
section
/-! DEFINITION. Machine/Service.lean: the moves of the three agents of R6: the Dispatch Loop's cycle (R61, R62, R92), the
Bus Sampler's two moves and the reset source's one (R87). -/

namespace Sys2Proof.Machine

/-- One move of the Dispatch Loop. In `Init` it completes the startup fill (R92, R98). In `Idle` it services the head of
the word channel, or waits when there is none (R61, R62; log entry 7). `Read` and `Write` are never seen between two
steps; from them the only transition R12 gives is to `Idle` (log entry 11). -/
def coreStep (s : State) : Host.Outcome State Fault Refusal :=
  match s.ctrl with
  | .init => .next s.initialise
  | .read => .next (s.setCtrl .idle)
  | .write => .next (s.setCtrl .idle)
  | .idle =>
    match s.wrecv with
    | none => .next s
    | some (w, t) => exec (decode w) t

/-- One move of the named agent. -/
def takeTurn (t : Turn) (s : State) : Host.Outcome State Fault Refusal :=
  match t with
  | .core => coreStep s
  | .deliver w => .next (s.deliver w)
  | .take => .next s.takeResponse
  | .reset => .next s.resetDevice

/-- The next move: of the agent whose turn is listed first, and of the Dispatch Loop when no turn is listed
(log entries 5 and 13). -/
def advance (s : State) : Host.Outcome State Fault Refusal :=
  match s.turns with
  | [] => coreStep s
  | t :: ts => takeTurn t { s with turns := ts }

/-- The state in which the Dispatch Loop is at step 1 of its cycle: the startup fill is completed if it was not, and
the turn is the Dispatch Loop's. -/
def State.atReceive (s : State) : State :=
  let s := match s.ctrl with
    | .init => s.initialise
    | .read => s.setCtrl .idle
    | .write => s.setCtrl .idle
    | .idle => s
  match s.turns with
  | [] => s
  | _ :: _ => { s with turns := .core :: s.turns }

/-- `w` as the word the Dispatch Loop receives next, in the place of the one it would have received (log entry 8). -/
def State.placeWord (w : Word) (s : State) : State :=
  let s := s.atReceive
  { s with wch := w :: s.wch.tail }

end Sys2Proof.Machine
end

