-- ==== Sys2Proof/Machine/Step.lean ====
section
/-! DEFINITION. Machine/Step.lean: one step of the system, and the placing of a word where the step receives it. -/

namespace Sys2Proof.Machine

/-- One step: one move of one agent (R6). -/
def step (s : State) : Host.Outcome State Fault Refusal := advance s

/-- `s` with the word of a table row placed at the head of the word channel, ready to be serviced by the very next step
(log entry 8). -/
def State.withFetchWord (s : State) (nbits w : Nat) : State := s.placeWord (tableWord nbits w)

end Sys2Proof.Machine
end

