-- ==== Sys2Proof/Machine/Ports.lean ====
section
/-! DEFINITION. Machine/Ports.lean: the CORE drawn as a block with ports (R75, R76, by decisions D1 and D16). The channels of
the state are what is normative; the ports are functions of the state and carry no behaviour beyond the channels. -/

namespace Sys2Proof.Machine

/-- R75: the byte-wide RAM interface, one access: the inputs `m_addr`, `m_wdata` and `m_we`; the memory afterwards and
`m_rdata`, which only a read gives (log entry 18). -/
def ramPort (m : Memory) (addr : Addr) (wdata : Byte) (we : Bool) : Memory × Option Byte :=
  if we then (m.write addr wdata, none) else (m, some (m.read addr))

/-- The one access the drawn block makes in control state `c`: the RAM port behind the address multiplexer, the
arbiter's write enable and the write-data path (R73 to R75). -/
def portAccess (c : Ctrl) (fillIndex : Addr) (f : Fields) (m : Memory) : Memory × Option Byte :=
  ramPort m (addressMux c fillIndex f.address) (writeData c fillIndex f.data) (writeEnable c f.isWrite)

/-- The busy state a decoded word puts the loop in (R12). -/
def busyState (f : Fields) : Ctrl :=
  match f.isWrite with
  | false => .read
  | true => .write

/-- R76: `w_valid`, a word is offered. -/
def wValid (s : State) : Bool := !s.wch.isEmpty

/-- R76: `w_ready`, which is 1 exactly when `ctrl = Idle`. -/
def wReady (s : State) : Bool := s.ctrl == .idle

/-- R76: the word transferred, when `w_valid` and `w_ready` are both 1. -/
def wTransfer (s : State) : Option Word := if wValid s && wReady s then s.wch.head? else none

/-- The access the drawn block makes in the Dispatch Loop's next move, where that move is a service. -/
def drawnService (s : State) : Option (Memory × Option Byte) :=
  (wTransfer s).map fun w => portAccess (busyState (decodeFields w)) 0#15 (decodeFields w) s.mem

/-- R76: `r_valid` and `r_data` in the Dispatch Loop's next move: the byte transferred, or none. -/
def rTransfer (s : State) : Option Byte := (drawnService s).bind fun r => r.2

end Sys2Proof.Machine
end

