-- ==== Sys2Proof/Machine/Debug.lean ====
section
/-! DEFINITION. Machine/Debug.lean: the optional debug stream as the pure observer R89 asks for: it reads the decoded triple,
the informational bits and the response byte of a service and changes nothing. The format of the text is not given
(91_not_in_source.md N16), so a record stands for a line (log entry 12). -/

namespace Sys2Proof.Machine

/-- What an observer may read of one service (R89, D8). -/
structure DebugRecord where
  fields : Fields
  nW : Bool
  nCS : Bool
  response : Option Byte
deriving DecidableEq, Repr

/-- The record of the service the Dispatch Loop makes in its next move, if logging is enabled and it makes one. -/
def debugObserve (enabled : Bool) (s : State) : Option DebugRecord :=
  if enabled then
    (wTransfer s).map fun w =>
      { fields := decodeFields w, nW := nW w, nCS := nCS w, response := rTransfer s }
  else none

/-- The debug output of the machine as configured: none, since `DEBUG = false` (R5, R89, D19). -/
def debugOutput (s : State) : Option DebugRecord := debugObserve Config.debug s

end Sys2Proof.Machine
end

