-- ==== Sys2Proof/Machine/Run.lean ====
section
/-! DEFINITION. Machine/Run.lean: the complete input-output behaviour of the CORE as one function (R71), and the iteration of
the step that it is compared with (R103). -/

namespace Sys2Proof.Machine

/-- R71: the final memory and the response bytes, in order, of servicing the words `ws` from memory `m`. -/
def run (m : Memory) (ws : List Word) : Memory × List Byte :=
  match ws with
  | [] => (m, [])
  | w :: ws =>
    match (decodeFields w).isWrite with
    | false =>
      let r := run m ws
      (r.1, m.read (decodeFields w).address :: r.2)
    | true => run (m.write (decodeFields w).address (decodeFields w).data) ws

/-- `k` steps, stopping at the first step that does not answer a next state. -/
def stepN (k : Nat) (s : State) : Host.Outcome State Fault Refusal :=
  match k with
  | 0 => .next s
  | k + 1 =>
    match step s with
    | .next t => stepN k t
    | .fault r => .fault r
    | .refused r => .refused r

/-- The word the Bus Sampler puts into the word channel in the next step, if it does (R87). -/
def accepted (s : State) : List Word :=
  match s.turns with
  | .deliver w :: _ => if wchHasRoom s.wch.length then [w] else []
  | _ => []

/-- The words the Bus Sampler puts into the word channel in the next `k` steps, in order of delivery. -/
def acceptedN (k : Nat) (s : State) : List Word :=
  match k with
  | 0 => []
  | k + 1 =>
    match step s with
    | .next t => accepted s ++ acceptedN k t
    | .fault _ => []
    | .refused _ => []

/-- The memory the first service finds: the startup pattern if the fill is still to be completed (R92, R98). -/
def startMem (s : State) : Memory := if s.ctrl = .init then Memory.filled else s.mem

end Sys2Proof.Machine
end

