-- ==== Sys2Proof/Safety.lean ====
section
/-! DEFINITION. Safety.lean: what counts as a good state and a safe run. The hardware cannot fault (R78), so safety is the
absence of a recorded overrun (R80) and the shape of the state. -/

namespace Sys2Proof.Machine

/-- The quiescent state (R103): the Dispatch Loop has no word to service. -/
def State.quiescent (s : State) : Prop := s.ctrl = .idle ∧ s.wch = []

/-- P-WAIT (R80), for the whole queue at once: the response channel has room for the response of every READ that waits in
the word channel. -/
def State.pWait (s : State) : Prop := s.rch.length + (run s.mem s.wch).2.length ≤ Config.rchDepth

/-- Whether the Dispatch Loop moves in the next step: it is named first, or no turn is listed. -/
def State.coreMoves (s : State) : Prop := s.turns = [] ∨ ∃ ts, s.turns = Turn.core :: ts

/-- The invariant of the machine. -/
structure State.Inv (s : State) : Prop where
  /-- the memory is in its canonical form -/
  mem_wf : s.mem.wf
  /-- a service is one step, so only `Init` and `Idle` are seen between steps (R12, R61) -/
  ctrl_rest : s.ctrl = .init ∨ s.ctrl = .idle
  /-- before the fill is complete no word is serviced and no response sent (R92, R98) -/
  init_fresh : s.ctrl = .init → s.mem = Memory.filled ∧ s.rch = [] ∧ s.resp = [] ∧ s.overrun = false
  /-- the word channel holds no more than it can (R5, R10) -/
  wch_fits : Config.wchUnbounded = true ∨ s.wch.length ≤ Config.wchDepth
  /-- the response channel holds no more than it can (R5, R11) -/
  rch_fits : s.rch.length ≤ Config.rchDepth
  /-- the bytes not yet taken are the last ones sent, in order (R11, R97), as long as no overrun is recorded (R80) -/
  rch_trace : s.overrun = false → s.rch <:+ s.resp

end Sys2Proof.Machine
end

