-- ==== Sys2Proof/Certificates/Slice0/Obligations.lean ====
section
/-! DEFINITION. Certificates/Slice0/Obligations.lean: the statements for the provers, each naming the rule it formalises.
Masks and positions are written out as the spec prints them, not through the constants the model uses. -/

open Sys2Proof Sys2Proof.Machine

/-! ## The word: decoder and encoder (30_encoding.md, 40_decoder.md) -/

/-- The decoder gives back every transaction from its canonical word (R47, R57). -/
def Obligations.DecodeEncodeIsIdentity : Prop :=
  ∀ i : Instr, i.wellFormed = true → decode (encode i) = i

/-- R57 (which the spec derives from its own reference encoder, D6): the round trip with `Encode` and with `EncodeX`; the converse up to the don't-care bits, and exactly
when they are 0; and 256 words share each triple. -/
def Obligations.DecoderRoundTrip : Prop :=
  (∀ (a : Addr) (d : Byte) (wr : Bool) (o : Word),
    decodeFields (encodeFields a.toNat d.toNat wr) = ⟨a, d, wr⟩ ∧
    decodeFields (encodeFieldsX a.toNat d.toNat wr o) = ⟨a, d, wr⟩) ∧
  (∀ w : Word,
    let f := decodeFields w
    encodeFields f.address.toNat f.data.toNat f.isWrite = w &&& 0x7FFFFF04#32 ∧
    (encodeFields f.address.toNat f.data.toNat f.isWrite = w ↔ w &&& 0x800000FB#32 = 0#32)) ∧
  ∀ f : Fields, ∃ ws : List Word, ws.Nodup ∧ ws.length = 256 ∧ ∀ w, w ∈ ws ↔ decodeFields w = f

/-- R58, whole: over-wide values are reduced modulo the field width, and disturb neither the other field nor bit 2. -/
def Obligations.OverWideFieldsAreMasked : Prop :=
  (∀ (a d : Nat) (wr : Bool),
    (decodeFields (encodeFields a d wr)).address.toNat = a % 32768 ∧
    (decodeFields (encodeFields a d wr)).data.toNat = d % 256 ∧
    (decodeFields (encodeFields a d wr)).isWrite = wr) ∧
  decodeFields (encodeFields 0x9234 0x1AB true) = ⟨0x1234#15, 0xAB#8, true⟩ ∧
  decodeFields (encodeFields 0x8000 0x00 true) = ⟨0#15, 0#8, true⟩

/-- R59 (which the spec marks as derived from R51 to R53): the decoder depends only on the bits of `0x7FFFFF04`. -/
def Obligations.DecoderIgnoresDontCareBits : Prop :=
  (∀ w o : Word, decodeFields w = decodeFields ((w &&& 0x7FFFFF04#32) ||| (o &&& 0x800000FB#32))) ∧
  (∀ w v : Word, w &&& 0x7FFFFF04#32 = v &&& 0x7FFFFF04#32 → decodeFields w = decodeFields v) ∧
  [0x55923404#32, 0xD5923404#32, 0x5592341C#32, 0x559234FF#32].map decodeFields =
    List.replicate 4 ⟨0x1234#15, 0xAB#8, true⟩

/-- R51, R52, R53, whole: the three formulas, the bits they select, what each output is used for, and the rules' corner
cases. -/
def Obligations.DecoderExtractsTheFields : Prop :=
  (∀ w : Word,
    (decodeFields w).address.toNat = (w.toNat >>> 8) &&& 0x7FFF ∧
    (decodeFields w).data.toNat = (w.toNat >>> 23) &&& 0xFF ∧
    ((decodeFields w).isWrite = true ↔ w.toNat &&& 0b100 ≠ 0)) ∧
  (∀ w : Word,
    (∀ k, k < 15 → (decodeFields w).address.getLsbD k = w.getLsbD (8 + k)) ∧
    (∀ k, k < 8 → (decodeFields w).data.getLsbD k = w.getLsbD (23 + k)) ∧
    (decodeFields w).isWrite = w.getLsbD 2) ∧
  (∀ w : Word, decode w = if (decodeFields w).isWrite = true then
    .write (decodeFields w).address (decodeFields w).data else .read (decodeFields w).address) ∧
  [0x00000000#32, 0xFFFFFFFF#32, 0x007FFF00#32, 0xFF8000FF#32, 0x00400000#32, 0x00000100#32, 0x00800000#32,
      0x00000080#32, 0x12345678#32].map (fun w => (decodeFields w).address) =
    [0#15, 0x7FFF#15, 0x7FFF#15, 0#15, 0x4000#15, 0x0001#15, 0#15, 0#15, 0x3456#15] ∧
  [0x7F800000#32, 0x807FFFFF#32, 0x80000000#32, 0x40000000#32, 0x00800000#32, 0x00400000#32, 0x12345678#32].map
      (fun w => (decodeFields w).data) = [0xFF#8, 0#8, 0#8, 0x80#8, 0x01#8, 0#8, 0x24#8] ∧
  [0x00000004#32, 0xFFFFFFFB#32, 0x00000008#32, 0x00000010#32, 0x00000003#32, 0x12345678#32].map
      (fun w => (decodeFields w).isWrite) = [true, false, false, false, false, false]

/-- Words written out bit by bit from R40 decode to the transactions they stand for. A sanity statement. -/
def Obligations.SpecWordsDecode : Prop :=
  decode 0b0_10101011_001001000110100_000_0_0_1_00#32 = .write 0x1234#15 0xAB#8 ∧
  decode 0b0_00000000_001001000110100_000_0_0_0_00#32 = .read 0x1234#15 ∧
  decode 0b1_10111101_010110110111110_111_0_1_1_11#32 = .write 0x2DBE#15 0xBD#8 ∧
  decode 0b0_11111111_111111111111111_000_1_1_0_00#32 = .read 0x7FFF#15

/-- R41, whole: bit 2 alone selects the transaction, in mask-and-match form; there is no third one. -/
def Obligations.BitTwoSelectsTheTransaction : Prop :=
  ∀ w : Word,
    (w &&& 0x00000004#32 = 0x00000000#32 ∧ decode w = .read (decodeFields w).address) ∨
    (w &&& 0x00000004#32 = 0x00000004#32 ∧ decode w = .write (decodeFields w).address (decodeFields w).data)

/-- R42: every word is serviced in every state, with the effect of a READ or of a WRITE, so none traps and none is a
no-operation; and flipping bit 2 pairs the READ words with the WRITE words, so there are 2^31 of each. That a READ answers
a next state with a full response channel too is the model's choice (log entry 3). -/
def Obligations.EveryWordIsLegal : Prop :=
  (∀ (w : Word) (s : State), ∃ t, exec (decode w) s = .next t ∧
    ((∃ a, decode w = .read a ∧ t.mem = s.mem ∧
        (s.rch.length < Config.rchDepth → t.resp = s.resp ++ [s.mem.read a])) ∨
      ∃ a d, decode w = .write a d ∧ t.mem = s.mem.write a d)) ∧
  ∀ w : Word, (∃ a, decode w = .read a) ↔ ∃ a d, decode (w ^^^ 0x00000004#32) = .write a d

/-- R46 (which the spec marks as derived from R40 to R45): which bits matter. Two READ words are one transaction exactly when they agree on bits 2 and 8 to 22, two
WRITE words exactly when they agree on bits 2 and 8 to 30; and every READ (one for each of the 2^15 addresses) and
every WRITE (one for each of the 2^23 pairs) has a word. -/
def Obligations.SignificantBitsOfAWord : Prop :=
  (∀ w v : Word, w &&& 4#32 = 0#32 → v &&& 4#32 = 0#32 →
    (decode w = decode v ↔ w &&& ~~~0xFF8000FB#32 = v &&& ~~~0xFF8000FB#32)) ∧
  (∀ w v : Word, w &&& 4#32 = 4#32 → v &&& 4#32 = 4#32 →
    (decode w = decode v ↔ w &&& ~~~0x800000FB#32 = v &&& ~~~0x800000FB#32)) ∧
  (∀ a, ∃ w, decode w = .read a) ∧ ∀ a d, ∃ w, decode w = .write a d

/-- R43, R44, whole: two words that differ only in the reserved bits 0, 1, 5, 6, 7, 31 and the informational bits 3 and 4 have
exactly the same effect, in every state in which one of them is serviced. -/
def Obligations.ReservedAndInformationalBitsHaveNoEffect : Prop :=
  ∀ (s : State) (w v : Word) (ws : List Word), s.coreMoves → s.ctrl = .idle → s.wch = w :: ws →
    w &&& ~~~0x800000FB#32 = v &&& ~~~0x800000FB#32 → step s = step { s with wch := v :: ws }

/-- R45, whole: the decoder extracts the data field of every word, and two READ words that differ only in it have
exactly the same effect. -/
def Obligations.ReadIgnoresTheDataField : Prop :=
  (∀ (w : Word) (k : Nat), k < 8 → (decodeFields w).data.getLsbD k = w.getLsbD (23 + k)) ∧
  ∀ (s : State) (w v : Word) (ws : List Word), s.coreMoves → s.ctrl = .idle → s.wch = w :: ws →
    w &&& 4#32 = 0#32 → w &&& ~~~0x7F800000#32 = v &&& ~~~0x7F800000#32 → step s = step { s with wch := v :: ws }

/-- R48: a well-formed line of the notation stands for the word `Encode` gives it, which is a word of the transaction it
names, a `.word` line for its value, and an ill-formed line of any of the three forms for no word. The notation and the
encoder are the spec's own (D11, D6; log entry 16). -/
def Obligations.NotationLinesStandForTheirWords : Prop :=
  (∀ a, a < 0x8000 → ∃ w, (Line.rd a).word? = some w ∧ w = encodeFields a 0 false ∧ w.toNat = a <<< 8 ∧
    decode w = .read (BitVec.ofNat 15 a)) ∧
  (∀ a b, a < 0x8000 → b < 0x100 → ∃ w, (Line.wr a b).word? = some w ∧ w = encodeFields a b true ∧
    w.toNat = a <<< 8 ||| b <<< 23 ||| 4 ∧ decode w = .write (BitVec.ofNat 15 a) (BitVec.ofNat 8 b)) ∧
  (∀ w : Word, (Line.raw w.toNat).word? = some w) ∧
  (∀ a, 0x8000 ≤ a → (Line.rd a).word? = none ∧ ∀ b, (Line.wr a b).word? = none) ∧
  (∀ a b, 0x100 ≤ b → (Line.wr a b).word? = none) ∧
  ∀ n, 2 ^ 32 ≤ n → (Line.raw n).word? = none

/-! ## The two transactions (41_dispatch.md, 20_memory.md) -/

/-- R64, whole: where the response channel has room (the precondition P-WAIT), a READ completes: the addressed byte is
sent, and nothing else changes. The byte is what the cell holds, the startup pattern where it was never written since
reset; two READs in a row of one address, the Bus Sampler taking the first response, send the same byte; and the
rule's example. -/
def Obligations.ReadSendsTheAddressedByte : Prop :=
  (∀ (a : Addr) (s : State), s.rch.length < Config.rchDepth →
    exec (.read a) s = .next { s with
      rch := s.rch ++ [s.mem.read a], resp := s.resp ++ [s.mem.read a], ctrl := .idle }) ∧
  (∀ a : Addr, (State.reset.mem.read a).toNat = ((a.toNat &&& 0xFF) + (a.toNat >>> 8)) % 256) ∧
  (∀ (a : Addr) (s t u : State), s.rch.length < Config.rchDepth →
    exec (.read a) s = .next t → exec (.read a) t.takeResponse = .next u →
    u.resp = s.resp ++ [s.mem.read a, s.mem.read a]) ∧
  ∃ t, step { State.reset with ctrl := .idle, wch := [0x00010000#32] } = .next t ∧ t.rch = [0x01#8]

/-- R65, whole: a WRITE completes in every state: the addressed cell holds the byte, every other cell and everything else is
unchanged, nothing is sent. Writing the value held changes nothing, a second WRITE replaces the first, the `/W` bit has
no effect, and the rule's example. -/
def Obligations.WriteStoresTheByte : Prop :=
  (∀ (a : Addr) (d : Byte) (s : State), ∃ m, exec (.write a d) s = .next { s with mem := m, ctrl := .idle } ∧
    m.read a = d ∧ (∀ b, b ≠ a → m.read b = s.mem.read b) ∧ (s.mem.wf → s.mem.read a = d → m = s.mem)) ∧
  (∀ (a : Addr) (d e : Byte) (s t u : State), exec (.write a d) s = .next t → exec (.write a e) t = .next u →
    u.mem.read a = e) ∧
  (∀ w : Word, decode w = decode (w ^^^ 0x00000008#32)) ∧
  ∃ t, step { State.reset with ctrl := .idle, wch := [0x55923404#32] } = .next t ∧
    State.reset.mem.read 0x1234#15 = 0x46#8 ∧ t.mem.read 0x1234#15 = 0xAB#8 ∧ t.resp = []

/-- The frame of READ (R24, R64, R69): what it leaves unchanged, with room in the response channel or without. It stores
nothing: every byte of memory reads as before. That it completes without room too is the model's choice (log entry 3). -/
def Obligations.ReadFrame : Prop :=
  ∀ (a : Addr) (s t : State), exec (.read a) s = .next t →
    (∀ b, t.mem.read b = s.mem.read b) ∧ t.mem = s.mem ∧ t.wch = s.wch ∧ t.turns = s.turns ∧
    (s.rch.length < Config.rchDepth → t.overrun = s.overrun ∧ t.freeIdx = s.freeIdx)

/-- The frame of WRITE (R25, R65, R69): every byte but the one at the address operand reads as before, and channels,
trace, overrun record and the model's own fields are unchanged. -/
def Obligations.WriteFrame : Prop :=
  ∀ (a : Addr) (d : Byte) (s t : State), exec (.write a d) s = .next t →
    (∀ b, b ≠ a → t.mem.read b = s.mem.read b) ∧ t.wch = s.wch ∧ t.rch = s.rch ∧ t.resp = s.resp ∧
    t.overrun = s.overrun ∧ t.turns = s.turns ∧ t.freeIdx = s.freeIdx

/-- R80 as the spec decides it (D4; log entry 3): a READ that finds no room records the overrun, leaves memory and word
channel alone, and goes on; of the response channel only its capacity is said. That the byte still enters the trace
is the model's choice (log entry 3). -/
def Obligations.ReadWithoutRoomRecordsOverrun : Prop :=
  ∀ (a : Addr) (s : State), Config.rchDepth ≤ s.rch.length →
    ∃ t, exec (.read a) s = .next t ∧ t.overrun = true ∧ t.mem = s.mem ∧ t.wch = s.wch ∧ t.turns = s.turns ∧
      t.ctrl = .idle ∧ t.resp = s.resp ++ [s.mem.read a] ∧ t.rch.length ≤ Config.rchDepth

/-- R80, D4: only a READ serviced with no room records an overrun, and only a reset clears it. -/
def Obligations.OverrunIsStickyAndExact : Prop :=
  (∀ s t : State, s.overrun = true → (∀ ts, s.turns ≠ .reset :: ts) → step s = .next t → t.overrun = true) ∧
  ∀ s t : State, s.overrun = false → step s = .next t → t.overrun = true →
    s.coreMoves ∧ s.ctrl = .idle ∧ Config.rchDepth ≤ s.rch.length ∧
      ∃ w ws a, s.wch = w :: ws ∧ decode w = .read a

/-- R69, whole (a READ under its precondition P-WAIT): a service takes the head of the word channel, and either one byte is sent or one cell is
overwritten, never both. -/
def Obligations.ServiceHasExactlyOneEffect : Prop :=
  ∀ (s : State) (w : Word) (ws : List Word), s.coreMoves → s.ctrl = .idle → s.wch = w :: ws →
    ((decodeFields w).isWrite = false → s.rch.length < Config.rchDepth) →
    ∃ t, step s = .next t ∧ t.wch = ws ∧ t.ctrl = .idle ∧ t.overrun = s.overrun ∧ t.turns = s.turns.tail ∧
      if (decodeFields w).isWrite = true then
        t.rch = s.rch ∧ t.resp = s.resp ∧ t.mem.read (decodeFields w).address = (decodeFields w).data ∧
          ∀ b, b ≠ (decodeFields w).address → t.mem.read b = s.mem.read b
      else
        t.mem = s.mem ∧ t.rch = s.rch ++ [s.mem.read (decodeFields w).address] ∧
          t.resp = s.resp ++ [s.mem.read (decodeFields w).address]

/-- R26, whole: a WRITE, then any words none of which writes the address, then a READ of it: the response is the
value. -/
def Obligations.WriteThenReadReturnsTheValue : Prop :=
  ∀ (m : Memory) (a : Addr) (v : Byte) (ws : List Word), (∀ w ∈ ws, ∀ d, decode w ≠ .write a d) →
    ∃ n rs, run m (encode (.write a v) :: ws ++ [encode (.read a)]) = (n, rs ++ [v])

/-- R30, whole: a READ leaves the memory as it was; READs of an address with no WRITE to it between return the same byte;
repeating a WRITE leaves the same memory; and a cell reads as the last value written to it, or as the startup pattern
if none was. -/
def Obligations.AccessesHaveNoHiddenSideEffect : Prop :=
  (∀ (a : Addr) (s t : State), exec (.read a) s = .next t → t.mem = s.mem) ∧
  (∀ (m : Memory) (a : Addr) (ws : List Word), (∀ w ∈ ws, ∀ d, decode w ≠ .write a d) →
    ∃ n b rs, run m (encode (.read a) :: ws ++ [encode (.read a)]) = (n, b :: rs ++ [b])) ∧
  (∀ (a : Addr) (d : Byte) (s t u : State), exec (.write a d) s = .next t → exec (.write a d) t = .next u →
    u.mem = t.mem) ∧
  ∀ (ws : List Word) (a : Addr),
    ((run Memory.filled ws).1.read a).toNat =
      match (ws.filter fun w => (decodeFields w).isWrite && (decodeFields w).address == a).getLast? with
      | some w => (decodeFields w).data.toNat
      | none => ((a.toNat &&& 0xFF) + (a.toNat >>> 8)) % 256

/-! ## The machine: steps, agents and the whole behaviour -/

/-- A step runs the decoded word (R61 to R63): where the Dispatch Loop moves, is idle and has a word, the step is `exec` of the
transaction of the head, on the state without that head and without the turn used. -/
def Obligations.StepRunsTheDecodedWord : Prop :=
  ∀ (s : State) (w : Word) (ws : List Word), s.coreMoves → s.ctrl = .idle → s.wch = w :: ws →
    (decode w).wellFormed = true ∧ step s = exec (decode w) { s with wch := ws, turns := s.turns.tail }

/-- R62: with an empty word channel the Dispatch Loop changes nothing, for any length of time; with a word in it, the
head is removed and the rest keeps its order. That the wait is a step answering the same state is the model's reading
(log entry 7), and that a READ completes without room its choice (log entry 3). -/
def Obligations.EmptyWordChannelMeansWaiting : Prop :=
  (∀ s : State, s.ctrl = .idle → s.wch = [] →
    (s.coreMoves → step s = .next { s with turns := s.turns.tail }) ∧
    (s.turns = [] → ∀ k, stepN k s = .next s)) ∧
  ∀ (s : State) (w : Word) (ws : List Word), s.coreMoves → s.ctrl = .idle → s.wch = w :: ws →
    ∃ t, step s = .next t ∧ exec (decode w) { s with wch := ws, turns := s.turns.tail } = .next t ∧ t.wch = ws

/-- R78: nothing can fault. Every step from every state answers a next state; that it does so after a send with no room
too is the model's choice (log entry 3). -/
def Obligations.EveryStepGoesOn : Prop :=
  ∀ s : State, ∃ t, step s = .next t

/-- R87 (rows 1 and 3; log entry 6): the Bus Sampler's delivery appends to the word channel where it has room, its taking
removes the head of the response channel, and neither touches anything else. -/
def Obligations.SamplerMovesTouchOnlyTheirChannel : Prop :=
  (∀ (s : State) (w : Word) (ts : List Turn), s.turns = .deliver w :: ts →
    step s = .next (if Config.wchUnbounded = true ∨ s.wch.length < Config.wchDepth then
      { s with wch := s.wch ++ [w], turns := ts } else { s with turns := ts })) ∧
  (∀ (s : State) (b : Byte) (bs : List Byte) (ts : List Turn), s.turns = .take :: ts → s.rch = b :: bs →
    step s = .next { s with rch := bs, turns := ts }) ∧
  ∀ (s : State) (ts : List Turn), s.turns = .take :: ts → s.rch = [] → step s = .next { s with turns := ts }

/-- R10, R70: the word channel is first-in first-out. In every step that is no reset, the words that leave it are its
head or nothing, they leave only where the Dispatch Loop moves from `Idle`, and what is accepted enters at the tail. -/
def Obligations.WordChannelIsFirstInFirstOut : Prop :=
  ∀ s t : State, (∀ ts, s.turns ≠ .reset :: ts) → step s = .next t →
    ∃ gone : List Word, s.wch ++ accepted s = gone ++ t.wch ∧ gone.length ≤ 1 ∧
      (gone ≠ [] → s.coreMoves ∧ s.ctrl = .idle)

/-- R9, R17, R29: after the fill and short of a reset, a cell changes only when the Dispatch Loop services a WRITE to it, and
then to the word's data. -/
def Obligations.OnlyAServicedWriteChangesMemory : Prop :=
  ∀ (s t : State) (a : Addr), s.ctrl ≠ .init → (∀ ts, s.turns ≠ .reset :: ts) → step s = .next t →
    t.mem.read a ≠ s.mem.read a →
    s.coreMoves ∧ s.ctrl = .idle ∧ ∃ w ws d, s.wch = w :: ws ∧ decode w = .write a d ∧ t.mem.read a = d

/-- R11, R69: short of a reset, a byte is sent only when the Dispatch Loop services a READ, exactly one byte, and it is what
the addressed cell holds. That a byte sent with no room enters the trace too is the model's choice (log entry 3). -/
def Obligations.OnlyAServicedReadResponds : Prop :=
  ∀ s t : State, (∀ ts, s.turns ≠ .reset :: ts) → step s = .next t → t.resp ≠ s.resp →
    s.coreMoves ∧ s.ctrl = .idle ∧
      ∃ w ws a, s.wch = w :: ws ∧ decode w = .read a ∧ t.resp = s.resp ++ [s.mem.read a]

/-- R71, the laws that follow from `Run` (the spec marks the function as derived from its rules): one response per word with bit 2 clear; runs compose; neither the don't-care
bits nor the data field of a READ word change anything. -/
def Obligations.LawsOfTheRunFunction : Prop :=
  (∀ (m : Memory) (ws : List Word), (run m ws).2.length = (ws.filter fun w => w &&& 4#32 == 0#32).length) ∧
  (∀ (m : Memory) (us vs : List Word), run m (us ++ vs) =
    ((run (run m us).1 vs).1, (run m us).2 ++ (run (run m us).1 vs).2)) ∧
  (∀ (m : Memory) (us vs : List Word) (w v : Word), w &&& 0x7FFFFF04#32 = v &&& 0x7FFFFF04#32 →
    run m (us ++ w :: vs) = run m (us ++ v :: vs)) ∧
  ∀ (m : Memory) (us vs : List Word) (w v : Word), w &&& 4#32 = 0#32 →
    w &&& ~~~0x7F800000#32 = v &&& ~~~0x7F800000#32 → run m (us ++ w :: vs) = run m (us ++ v :: vs)

/-- R33, R70, R103 (the part about the responses the spec marks as derived): whatever the interleaving of deliveries, takings and services, from any state and with no reset and no overrun
recorded, once the word channel is drained the memory and the trace are those of servicing the waiting and the delivered
words one by one in the order of delivery. -/
def Obligations.EffectsOccurInDeliveryOrder : Prop :=
  ∀ (k : Nat) (s t : State), Turn.reset ∉ s.turns.take k → stepN k s = .next t → t.quiescent →
    t.overrun = false →
    t.mem = (run (startMem s) (s.wch ++ acceptedN k s)).1 ∧
    t.resp = s.resp ++ (run (startMem s) (s.wch ++ acceptedN k s)).2

/-- R102 (weak fairness, D20) and R71: with the Bus Sampler silent, the Dispatch Loop services as many words as wait in as
many steps, and ends quiescent; under P-WAIT with `Run`'s results, every response in the response channel. That it gets
through all of them without P-WAIT too is the model's choice (log entry 3); that the loop always moves is log entry 13. -/
def Obligations.WaitingWordsAreAllServed : Prop :=
  ∀ s : State, s.ctrl = .idle → s.turns = [] →
    ∃ t, stepN s.wch.length s = .next t ∧ t.quiescent ∧
      (s.pWait → t.mem = (run s.mem s.wch).1 ∧ t.resp = s.resp ++ (run s.mem s.wch).2 ∧
        t.rch = s.rch ++ (run s.mem s.wch).2 ∧ t.overrun = s.overrun)

/-- The invariant is kept by every step, from every state that has it (R5, R9 to R12, R80, R92). -/
def Obligations.StepKeepsTheInvariant : Prop :=
  ∀ s t : State, s.Inv → step s = .next t → t.Inv

/-- The state right after reset has the invariant. -/
def Obligations.ResetStateIsGood : Prop := State.reset.Inv

/-! ## Reset and the startup fill (10_state.md section 9, 70_reset_and_hazards.md) -/

/-- R19, whole: after reset every cell holds the startup pattern, 256 being subtracted exactly when the sum reaches it,
first at `0x01FF`; at every reset the same; and the document's three checks. -/
def Obligations.ResetFillsEveryCell : Prop :=
  (∀ a : Addr,
    (State.reset.mem.read a).toNat = ((a.toNat &&& 0xFF) + (a.toNat >>> 8)) % 256 ∧
    a.toNat >>> 8 ≤ 127 ∧ a.toNat &&& 0xFF ≤ 255 ∧ (a.toNat &&& 0xFF) + (a.toNat >>> 8) ≤ 382 ∧
    (256 ≤ (a.toNat &&& 0xFF) + (a.toNat >>> 8) →
      0x01FF ≤ a.toNat ∧ (State.reset.mem.read a).toNat = (a.toNat &&& 0xFF) + (a.toNat >>> 8) - 256)) ∧
  (∀ (s t : State) (ts : List Turn), s.turns = .reset :: ts → step s = .next t →
    ∀ a, t.mem.read a = State.reset.mem.read a) ∧
  (∀ (s t : State), s.coreMoves → s.ctrl = .init → step s = .next t → ∀ a, t.mem.read a = State.reset.mem.read a) ∧
  State.reset.mem.read 0#15 = 0#8 ∧ State.reset.mem.read 256#15 = 1#8 ∧ State.reset.mem.read 511#15 = 0#8

/-- 95_test_vectors.md section 2 (from R19): in each row of 256 consecutive cells the startup pattern holds each byte value
exactly once. -/
def Obligations.EachRowOfTheFillHoldsEveryByteOnce : Prop :=
  ∀ (r : Nat) (b : Byte), r < 128 → ∃ i, i < 256 ∧ State.reset.mem.read (BitVec.ofNat 15 (256 * r + i)) = b ∧
    ∀ j, j < 256 → State.reset.mem.read (BitVec.ofNat 15 (256 * r + j)) = b → j = i

/-- R92, D17: writing the pattern cell by cell, in any order that reaches every cell, gives what the model's one-step fill
gives. -/
def Obligations.FillOrderCannotBeObserved : Prop :=
  ∀ (s : State) (order : List Addr), s.mem.wf → (∀ a, a ∈ order) →
    Memory.fillCells order s.mem = s.initialise.mem

/-- R94, R20, R92: from the state after reset, the Dispatch Loop's first move leaves the launch state. The empty channels are
the spec's decision (D5; log entry 9). -/
def Obligations.LaunchStateFollowsReset : Prop :=
  State.reset.ctrl = .init ∧ ∃ t, step State.reset = .next t ∧
    (∀ a : Addr, (t.mem.read a).toNat = ((a.toNat &&& 0xFF) + (a.toNat >>> 8)) % 256) ∧
    t.ctrl = .idle ∧ t.wch = [] ∧ t.rch = [] ∧ t.resp = [] ∧ t.overrun = false

/-- R91, R94, R82 (d) (D9; log entry 10): a reset in any state leads to the state after reset. -/
def Obligations.ResetReestablishesTheResetState : Prop :=
  ∀ (s : State) (ts : List Turn), s.turns = .reset :: ts →
    step s = .next { State.reset with turns := ts, freeIdx := s.freeIdx }

/-- R93: what a machine does after a reset does not depend on anything before it: two machines that are reset and then meet
the same moves of their environment agree, and as long as no overrun is recorded they agree on the response channel
too. The spec marks the rule as derived; what it says beyond an overrun rests on the model's choice (log entry 3). -/
def Obligations.ResetIsHistoryFree : Prop :=
  ∀ (k : Nat) (s s' t t' : State) (ts : List Turn), s.turns = .reset :: ts → s'.turns = .reset :: ts →
    stepN (k + 1) s = .next t → stepN (k + 1) s' = .next t' →
    t.mem = t'.mem ∧ t.wch = t'.wch ∧ t.resp = t'.resp ∧ t.ctrl = t'.ctrl ∧ t.overrun = t'.overrun ∧
      (t.overrun = false → t.rch = t'.rch)

/-- R95, R98 (D5): a word delivered during the fill waits, and is serviced first, against the filled memory. -/
def Obligations.WordDeliveredDuringTheFillWaits : Prop :=
  ∀ (s : State) (w : Word), s.ctrl = .init → s.wch = [] → s.turns = [.deliver w] →
    ∃ t, stepN 2 s = .next t ∧ t.ctrl = .idle ∧ t.wch = [w] ∧ t.resp = s.resp ∧
      (∀ a : Addr, t.mem.read a = State.reset.mem.read a) ∧ step t = exec (decode w) { t with wch := [] }

/-! ## The block as drawn, and the debug observer -/

/-- R73 to R76 (D1, D16): the block drawn with address multiplexer, arbiter and one RAM port makes, in each service, the
access the Dispatch Loop makes, and its response port carries what is sent; during the fill the port writes the pattern
at the fill index; while idle it writes nothing (log entry 18). That the byte of a READ without room is sent, and so enters
the trace, is the model's choice (log entry 3). -/
def Obligations.DrawnBlockMakesTheSameAccess : Prop :=
  (∀ (s t : State) (w : Word) (ws : List Word), s.coreMoves → s.ctrl = .idle → s.wch = w :: ws → step s = .next t →
    wTransfer s = some w ∧ (∃ r, drawnService s = some (t.mem, r)) ∧ t.resp = s.resp ++ (rTransfer s).toList) ∧
  (∀ (i : Addr) (f : Fields) (m : Memory), (portAccess .init i f m).1 = m.write i (fill i.toNat)) ∧
  (∀ (i : Addr) (f : Fields) (m : Memory), (portAccess .idle i f m).1 = m) ∧
  ∀ s : State, (wReady s = true ↔ s.ctrl = .idle) ∧ (s.ctrl ≠ .idle → wTransfer s = none)

/-- R89 (D19; log entry 12): as configured there is no debug output; and an observer's record tells the service truly.
That the byte of a READ without room enters the trace is the model's choice (log entry 3). -/
def Obligations.DebugObserverTellsTheService : Prop :=
  (∀ s : State, debugOutput s = none) ∧
  ∀ (s t : State) (r : DebugRecord), s.coreMoves → debugObserve true s = some r → step s = .next t →
    ∃ w ws, s.wch = w :: ws ∧ t.wch = ws ∧ r.fields = decodeFields w ∧ r.nW = w.getLsbD 3 ∧ r.nCS = w.getLsbD 4 ∧
      t.resp = s.resp ++ r.response.toList
end

