-- ==== Sys2Proof/Laws/Decode.lean ====
section
/-! SUPPORT. Laws/Decode.lean: the decoder's outputs by name, the transaction a word decodes to by its direction bit, and one
unfolding of `run` for each kind of word. -/

namespace Sys2Proof

@[simp] theorem decodeFields_address (w : Word) : (decodeFields w).address = addressOf w := rfl
@[simp] theorem decodeFields_data (w : Word) : (decodeFields w).data = dataOf w := rfl
@[simp] theorem decodeFields_isWrite (w : Word) : (decodeFields w).isWrite = isWriteOf w := rfl

/-- R41: direction bit clear. -/
theorem decode_of_read {w : Word} (h : isWriteOf w = false) : decode w = .read (addressOf w) := by
  simp [decode, Fields.toInstr, h]

/-- R41: direction bit set. -/
theorem decode_of_write {w : Word} (h : isWriteOf w = true) : decode w = .write (addressOf w) (dataOf w) := by
  simp [decode, Fields.toInstr, h]

namespace Machine

@[simp] theorem run_nil (m : Memory) : run m [] = (m, []) := rfl

theorem run_cons_of_read {w : Word} (h : isWriteOf w = false) (m : Memory) (ws : List Word) :
    run m (w :: ws) = ((run m ws).1, m.read (addressOf w) :: (run m ws).2) := by
  simp [run, h]

theorem run_cons_of_write {w : Word} (h : isWriteOf w = true) (m : Memory) (ws : List Word) :
    run m (w :: ws) = run (m.write (addressOf w) (dataOf w)) ws := by
  simp [run, h]

end Machine

end Sys2Proof
end

