-- ==== Sys2Proof/Laws/Memory.lean ====
section
/-! SUPPORT. Laws/Memory.lean: the laws of the Memory Store: read after write (R25, R26), the canonical form kept by every
operation, and equality of two canonical memories that read alike. -/

namespace Sys2Proof.Machine

theorem Memory.lookup_insert_same (m : Memory) (k : Nat) (v : Byte) : (m.insert k v).lookup k = some v := by
  induction m with
  | nil => simp [Memory.insert, Memory.lookup]
  | cons c m ih =>
    unfold Memory.insert
    split
    · simp [Memory.lookup]
    · split
      · simp [Memory.lookup]
      · simp [Memory.lookup, *]

theorem Memory.lookup_insert_other (m : Memory) {k j : Nat} (h : j ≠ k) (v : Byte) :
    (m.insert k v).lookup j = m.lookup j := by
  induction m with
  | nil => simp [Memory.insert, Memory.lookup, h.symm]
  | cons c m ih =>
    unfold Memory.insert
    split
    · simp [Memory.lookup, h.symm]
    · split
      · next _ hc => simp [Memory.lookup, h.symm, hc]
      · simp [Memory.lookup, ih]

theorem Memory.lookup_erase_same (m : Memory) (k : Nat) : (m.erase k).lookup k = none := by
  induction m with
  | nil => rfl
  | cons c m ih =>
    unfold Memory.erase
    split
    · exact ih
    · simp [Memory.lookup, *]

theorem Memory.lookup_erase_other (m : Memory) {k j : Nat} (h : j ≠ k) : (m.erase k).lookup j = m.lookup j := by
  induction m with
  | nil => rfl
  | cons c m ih =>
    unfold Memory.erase
    split
    · next hc => simp [Memory.lookup, ih, hc, h.symm]
    · simp [Memory.lookup, ih]

/-- R25: the written cell holds the written value. -/
theorem Memory.read_write_same (m : Memory) (a : Addr) (v : Byte) : (m.write a v).read a = v := by
  unfold Memory.write Memory.read
  split
  · next h => simp [Memory.lookup_erase_same, h]
  · simp [Memory.lookup_insert_same]

/-- R25: every other cell is what it was. -/
theorem Memory.read_write_other (m : Memory) {a b : Addr} (h : b ≠ a) (v : Byte) :
    (m.write a v).read b = m.read b := by
  have hn : b.toNat ≠ a.toNat := fun e => h (BitVec.eq_of_toNat_eq e)
  unfold Memory.write Memory.read
  split
  · rw [Memory.lookup_erase_other m hn]
  · rw [Memory.lookup_insert_other m hn]

/-- R19: a memory that lists nothing reads as the startup pattern. -/
theorem Memory.read_filled (a : Addr) : Memory.filled.read a = fill a.toNat := rfl

theorem Memory.mem_insert {m : Memory} {k : Nat} {v : Byte} {c : Host.Cell} (h : c ∈ m.insert k v) :
    c = (k, v) ∨ c ∈ m := by
  induction m with
  | nil => simpa [Memory.insert] using h
  | cons d m ih =>
    unfold Memory.insert at h
    split at h
    · simpa using h
    · split at h
      · rcases List.mem_cons.1 h with h | h
        · exact .inl h
        · exact .inr (List.mem_cons_of_mem _ h)
      · rcases List.mem_cons.1 h with h | h
        · exact .inr (h ▸ List.mem_cons_self ..)
        · exact (ih h).imp_right (List.mem_cons_of_mem _)

theorem Memory.erase_sublist (m : Memory) (k : Nat) : (m.erase k).Sublist m := by
  induction m with
  | nil => exact .slnil
  | cons c m ih =>
    unfold Memory.erase
    split
    · exact ih.cons _
    · exact ih.cons_cons _

theorem Memory.insert_pairwise {m : Memory} (k : Nat) (v : Byte) (h : m.Pairwise (fun c d => c.1 < d.1)) :
    (m.insert k v).Pairwise (fun c d => c.1 < d.1) := by
  induction m with
  | nil => simp [Memory.insert]
  | cons c m ih =>
    obtain ⟨hc, hm⟩ := List.pairwise_cons.1 h
    unfold Memory.insert
    split
    · next hk =>
      refine List.pairwise_cons.2 ⟨fun d hd => ?_, h⟩
      rcases List.mem_cons.1 hd with rfl | hd
      · exact hk
      · exact hk.trans (hc d hd)
    · split
      · next hk => exact List.pairwise_cons.2 ⟨fun d hd => hk ▸ hc d hd, hm⟩
      · refine List.pairwise_cons.2 ⟨fun d hd => ?_, ih hm⟩
        rcases Memory.mem_insert hd with rfl | hd
        · dsimp only; omega
        · exact hc d hd

/-- A write keeps the canonical form. -/
theorem Memory.write_wf {m : Memory} (h : m.wf) (a : Addr) (v : Byte) : (m.write a v).wf := by
  unfold Memory.write
  split
  · exact ⟨h.1.sublist (Memory.erase_sublist m _), fun c hc => h.2 c ((Memory.erase_sublist m _).subset hc)⟩
  · next hv =>
    refine ⟨Memory.insert_pairwise _ _ h.1, fun c hc => ?_⟩
    rcases Memory.mem_insert hc with rfl | hc
    · exact ⟨a.isLt, hv⟩
    · exact h.2 c hc

/-- The memory after reset is in its canonical form. -/
theorem Memory.filled_wf : Memory.filled.wf := by decide

/-- The startup fill keeps the canonical form, in any order of the cells. -/
theorem Memory.fillCells_wf {m : Memory} (h : m.wf) (order : List Addr) : (Memory.fillCells order m).wf := by
  induction order generalizing m with
  | nil => exact h
  | cons a order ih => exact ih (Memory.write_wf h a _)

theorem Memory.lookup_none_of_lt {m : Memory} {k : Nat} (h : ∀ c ∈ m, k < c.1) : m.lookup k = none := by
  induction m with
  | nil => rfl
  | cons c m ih =>
    have := h c (List.mem_cons_self ..)
    simp [Memory.lookup, this.ne', ih fun d hd => h d (List.mem_cons_of_mem _ hd)]

/-- Canonical lists with the same listing for every address are the same list. -/
theorem Memory.eq_of_lookup {m n : Memory} (hm : m.Pairwise (fun c d => c.1 < d.1))
    (hn : n.Pairwise (fun c d => c.1 < d.1)) (h : ∀ k, m.lookup k = n.lookup k) : m = n := by
  induction m generalizing n with
  | nil =>
    cases n with
    | nil => rfl
    | cons d n => simpa [Memory.lookup] using h d.1
  | cons c m ih =>
    cases n with
    | nil => simpa [Memory.lookup] using h c.1
    | cons d n =>
      obtain ⟨hc, hm⟩ := List.pairwise_cons.1 hm
      obtain ⟨hd, hn⟩ := List.pairwise_cons.1 hn
      have key : c.1 = d.1 := by
        rcases lt_trichotomy c.1 d.1 with hlt | heq | hlt
        · have := h c.1
          rw [Memory.lookup_none_of_lt (m := d :: n)] at this
          · simp [Memory.lookup] at this
          · intro e he
            rcases List.mem_cons.1 he with rfl | he
            · exact hlt
            · exact hlt.trans (hd e he)
        · exact heq
        · have := h d.1
          rw [Memory.lookup_none_of_lt (m := c :: m)] at this
          · simp [Memory.lookup] at this
          · intro e he
            rcases List.mem_cons.1 he with rfl | he
            · exact hlt
            · exact hlt.trans (hc e he)
      have hv := h c.1
      simp only [Memory.lookup, key, if_true] at hv
      have tail : m = n := by
        refine ih hm hn fun k => ?_
        have hk := h k
        by_cases e : k = c.1
        · rw [Memory.lookup_none_of_lt (m := m) (by rw [e]; exact hc),
            Memory.lookup_none_of_lt (m := n) (by rw [e, key]; exact hd)]
        · simpa [Memory.lookup, Ne.symm e, key ▸ Ne.symm e] using hk
      rw [tail, Prod.ext key (by simpa using hv)]

/-- In a canonical memory a listed value is never the startup pattern. -/
theorem Memory.lookup_ne_fill {m : Memory} (h : m.wf) {k : Nat} {v : Byte} (hk : m.lookup k = some v) :
    k < Config.memSize ∧ v ≠ fill k := by
  obtain ⟨-, h⟩ := h
  induction m with
  | nil => simp [Memory.lookup] at hk
  | cons c m ih =>
    unfold Memory.lookup at hk
    split at hk
    · next hc =>
      obtain rfl : c.2 = v := by simpa using hk
      exact hc ▸ h c (List.mem_cons_self ..)
    · exact ih hk fun d hd => h d (List.mem_cons_of_mem _ hd)

/-- Two canonical memories that read alike at every address are equal. -/
theorem Memory.eq_of_read {m n : Memory} (hm : m.wf) (hn : n.wf) (h : ∀ a, m.read a = n.read a) : m = n := by
  refine Memory.eq_of_lookup hm.1 hn.1 fun k => ?_
  by_cases hk : k < Config.memSize
  · have ha : (BitVec.ofNat 15 k).toNat = k := by simpa using Nat.mod_eq_of_lt hk
    have := h (BitVec.ofNat 15 k)
    simp only [Memory.read, ha] at this
    rcases em : m.lookup k with _ | v <;> rcases en : n.lookup k with _ | w <;>
      simp only [em, en, Option.getD_none, Option.getD_some] at this ⊢
    · exact absurd this.symm (Memory.lookup_ne_fill hn en).2
    · exact absurd this (Memory.lookup_ne_fill hm em).2
    · rw [this]
  · rcases em : m.lookup k with _ | v <;> rcases en : n.lookup k with _ | w
    · rfl
    · exact absurd (Memory.lookup_ne_fill hn en).1 hk
    · exact absurd (Memory.lookup_ne_fill hm em).1 hk
    · exact absurd (Memory.lookup_ne_fill hm em).1 hk

end Sys2Proof.Machine
end

