-- ==== Sys2Proof/Laws/State.lean ====
section
/-! SUPPORT. Laws/State.lean: what each update of the state does to each field, so that no proof unfolds a record update. -/

namespace Sys2Proof.Machine

/-! `setCtrl` -/

@[simp] theorem State.setCtrl_mem (c : Ctrl) (s : State) : (s.setCtrl c).mem = s.mem := rfl
@[simp] theorem State.setCtrl_wch (c : Ctrl) (s : State) : (s.setCtrl c).wch = s.wch := rfl
@[simp] theorem State.setCtrl_rch (c : Ctrl) (s : State) : (s.setCtrl c).rch = s.rch := rfl
@[simp] theorem State.setCtrl_ctrl (c : Ctrl) (s : State) : (s.setCtrl c).ctrl = c := rfl
@[simp] theorem State.setCtrl_resp (c : Ctrl) (s : State) : (s.setCtrl c).resp = s.resp := rfl
@[simp] theorem State.setCtrl_overrun (c : Ctrl) (s : State) : (s.setCtrl c).overrun = s.overrun := rfl
@[simp] theorem State.setCtrl_turns (c : Ctrl) (s : State) : (s.setCtrl c).turns = s.turns := rfl
@[simp] theorem State.setCtrl_freeIdx (c : Ctrl) (s : State) : (s.setCtrl c).freeIdx = s.freeIdx := rfl

/-! `setMem` -/

@[simp] theorem State.setMem_mem (m : Memory) (s : State) : (s.setMem m).mem = m := rfl
@[simp] theorem State.setMem_wch (m : Memory) (s : State) : (s.setMem m).wch = s.wch := rfl
@[simp] theorem State.setMem_rch (m : Memory) (s : State) : (s.setMem m).rch = s.rch := rfl
@[simp] theorem State.setMem_ctrl (m : Memory) (s : State) : (s.setMem m).ctrl = s.ctrl := rfl
@[simp] theorem State.setMem_resp (m : Memory) (s : State) : (s.setMem m).resp = s.resp := rfl
@[simp] theorem State.setMem_overrun (m : Memory) (s : State) : (s.setMem m).overrun = s.overrun := rfl
@[simp] theorem State.setMem_turns (m : Memory) (s : State) : (s.setMem m).turns = s.turns := rfl
@[simp] theorem State.setMem_freeIdx (m : Memory) (s : State) : (s.setMem m).freeIdx = s.freeIdx := rfl

/-! `recordOverrun` -/

@[simp] theorem State.recordOverrun_mem (s : State) : (s.recordOverrun).mem = s.mem := rfl
@[simp] theorem State.recordOverrun_wch (s : State) : (s.recordOverrun).wch = s.wch := rfl
@[simp] theorem State.recordOverrun_rch (s : State) : (s.recordOverrun).rch = (Config.overrunRch s.freeIdx).take Config.rchDepth := rfl
@[simp] theorem State.recordOverrun_ctrl (s : State) : (s.recordOverrun).ctrl = s.ctrl := rfl
@[simp] theorem State.recordOverrun_resp (s : State) : (s.recordOverrun).resp = s.resp := rfl
@[simp] theorem State.recordOverrun_overrun (s : State) : (s.recordOverrun).overrun = true := rfl
@[simp] theorem State.recordOverrun_turns (s : State) : (s.recordOverrun).turns = s.turns := rfl
@[simp] theorem State.recordOverrun_freeIdx (s : State) : (s.recordOverrun).freeIdx = s.freeIdx + 1 := rfl

/-! `initialise` -/

@[simp] theorem State.initialise_mem (s : State) : (s.initialise).mem = Memory.filled := rfl
@[simp] theorem State.initialise_wch (s : State) : (s.initialise).wch = s.wch := rfl
@[simp] theorem State.initialise_rch (s : State) : (s.initialise).rch = s.rch := rfl
@[simp] theorem State.initialise_ctrl (s : State) : (s.initialise).ctrl = .idle := rfl
@[simp] theorem State.initialise_resp (s : State) : (s.initialise).resp = s.resp := rfl
@[simp] theorem State.initialise_overrun (s : State) : (s.initialise).overrun = s.overrun := rfl
@[simp] theorem State.initialise_turns (s : State) : (s.initialise).turns = s.turns := rfl
@[simp] theorem State.initialise_freeIdx (s : State) : (s.initialise).freeIdx = s.freeIdx := rfl

/-! `takeResponse` -/

@[simp] theorem State.takeResponse_mem (s : State) : (s.takeResponse).mem = s.mem := rfl
@[simp] theorem State.takeResponse_wch (s : State) : (s.takeResponse).wch = s.wch := rfl
@[simp] theorem State.takeResponse_rch (s : State) : (s.takeResponse).rch = s.rch.tail := rfl
@[simp] theorem State.takeResponse_ctrl (s : State) : (s.takeResponse).ctrl = s.ctrl := rfl
@[simp] theorem State.takeResponse_resp (s : State) : (s.takeResponse).resp = s.resp := rfl
@[simp] theorem State.takeResponse_overrun (s : State) : (s.takeResponse).overrun = s.overrun := rfl
@[simp] theorem State.takeResponse_turns (s : State) : (s.takeResponse).turns = s.turns := rfl
@[simp] theorem State.takeResponse_freeIdx (s : State) : (s.takeResponse).freeIdx = s.freeIdx := rfl

/-! `resetDevice` -/

@[simp] theorem State.resetDevice_mem (s : State) : (s.resetDevice).mem = Memory.filled := rfl
@[simp] theorem State.resetDevice_wch (s : State) : (s.resetDevice).wch = [] := rfl
@[simp] theorem State.resetDevice_rch (s : State) : (s.resetDevice).rch = [] := rfl
@[simp] theorem State.resetDevice_ctrl (s : State) : (s.resetDevice).ctrl = .init := rfl
@[simp] theorem State.resetDevice_resp (s : State) : (s.resetDevice).resp = [] := rfl
@[simp] theorem State.resetDevice_overrun (s : State) : (s.resetDevice).overrun = false := rfl
@[simp] theorem State.resetDevice_turns (s : State) : (s.resetDevice).turns = s.turns := rfl
@[simp] theorem State.resetDevice_freeIdx (s : State) : (s.resetDevice).freeIdx = s.freeIdx := rfl

/-! `deliver`: all but the word channel -/

@[simp] theorem State.deliver_mem (w : Word) (s : State) : (s.deliver w).mem = s.mem := by unfold State.deliver; split <;> rfl
@[simp] theorem State.deliver_rch (w : Word) (s : State) : (s.deliver w).rch = s.rch := by unfold State.deliver; split <;> rfl
@[simp] theorem State.deliver_ctrl (w : Word) (s : State) : (s.deliver w).ctrl = s.ctrl := by unfold State.deliver; split <;> rfl
@[simp] theorem State.deliver_resp (w : Word) (s : State) : (s.deliver w).resp = s.resp := by unfold State.deliver; split <;> rfl
@[simp] theorem State.deliver_overrun (w : Word) (s : State) : (s.deliver w).overrun = s.overrun := by unfold State.deliver; split <;> rfl
@[simp] theorem State.deliver_turns (w : Word) (s : State) : (s.deliver w).turns = s.turns := by unfold State.deliver; split <;> rfl
@[simp] theorem State.deliver_freeIdx (w : Word) (s : State) : (s.deliver w).freeIdx = s.freeIdx := by unfold State.deliver; split <;> rfl

/-! `rsend`: the fields that do not depend on the channel having room -/

@[simp] theorem State.rsend_mem (b : Byte) (s : State) : (s.rsend b).mem = s.mem := by unfold State.rsend; dsimp only; split <;> rfl
@[simp] theorem State.rsend_wch (b : Byte) (s : State) : (s.rsend b).wch = s.wch := by unfold State.rsend; dsimp only; split <;> rfl
@[simp] theorem State.rsend_ctrl (b : Byte) (s : State) : (s.rsend b).ctrl = s.ctrl := by unfold State.rsend; dsimp only; split <;> rfl
@[simp] theorem State.rsend_resp (b : Byte) (s : State) : (s.rsend b).resp = s.resp ++ [b] := by unfold State.rsend; dsimp only; split <;> rfl
@[simp] theorem State.rsend_turns (b : Byte) (s : State) : (s.rsend b).turns = s.turns := by unfold State.rsend; dsimp only; split <;> rfl

end Sys2Proof.Machine
end

