-- ==== Sys2Proof/Laws/Ops.lean ====
section
/-! SUPPORT. Laws/Ops.lean: what each channel operation can do, said once. -/

namespace Sys2Proof.Machine

/-- R5: the response channel has room exactly when it holds fewer bytes than its depth. -/
theorem rchHasRoom_iff (n : Nat) : rchHasRoom n = true ↔ n < Config.rchDepth := by
  have : 0 < Config.rchDepth := Nat.succ_pos _
  rw [rchHasRoom, Bool.or_eq_true, beq_iff_eq, decide_eq_true_iff]
  omega

/-- R5: the word channel has room exactly when it is unbounded or holds fewer words than its depth. -/
theorem wchHasRoom_iff (n : Nat) :
    wchHasRoom n = true ↔ Config.wchUnbounded = true ∨ n < Config.wchDepth := by
  have : 0 < Config.wchDepth := Nat.succ_pos _
  rw [wchHasRoom, Bool.or_eq_true, Bool.or_eq_true, beq_iff_eq, decide_eq_true_iff]
  constructor
  · rintro ((rfl | h) | h)
    exacts [.inr this, .inl h, .inr h]
  · rintro (h | h)
    exacts [.inl (.inr h), .inr h]

/-- R68: a send that finds room. -/
theorem State.rsend_of_room {s : State} (b : Byte) (h : s.rch.length < Config.rchDepth) :
    s.rsend b = { s with rch := s.rch ++ [b], resp := s.resp ++ [b] } := by
  simp [State.rsend, (rchHasRoom_iff _).2 h]

/-- R80: a send that finds none. -/
theorem State.rsend_of_full {s : State} (b : Byte) (h : Config.rchDepth ≤ s.rch.length) :
    s.rsend b = { s with resp := s.resp ++ [b] }.recordOverrun := by
  have : ¬ rchHasRoom s.rch.length = true := by rw [rchHasRoom_iff]; omega
  simp [State.rsend, this]

/-- R62: nothing is received from an empty channel. -/
@[simp] theorem State.wrecv_of_nil {s : State} (h : s.wch = []) : s.wrecv = none := by
  simp [State.wrecv, h]

/-- R62: the head is received, and the rest keeps its order. -/
@[simp] theorem State.wrecv_of_cons {s : State} {w : Word} {ws : List Word} (h : s.wch = w :: ws) :
    s.wrecv = some (w, { s with wch := ws }) := by
  simp [State.wrecv, h]

/-- R87: a delivery that finds room. -/
theorem State.deliver_of_room {s : State} (w : Word) (h : wchHasRoom s.wch.length = true) :
    s.deliver w = { s with wch := s.wch ++ [w] } := by
  simp [State.deliver, h]

/-- D3: a delivery that finds none. -/
theorem State.deliver_of_full {s : State} (w : Word) (h : wchHasRoom s.wch.length = false) :
    s.deliver w = s := by
  simp [State.deliver, h]

end Sys2Proof.Machine
end

