-- ==== Sys2Proof/Laws/PerInstr.lean ====
section
/-! SUPPORT. Laws/PerInstr.lean: statements about every transaction as syntax, one lemma per constructor. -/

/-- R47: the canonical word of a transaction has every don't-care bit 0. -/
def Sys2Proof.Laws.CanonicalWord.Statement (i : Sys2Proof.Instr) : Prop :=
  Sys2Proof.encode i &&& Sys2Proof.Config.dontCareMask = 0#32

/-- The canonical words of R47, before the operands are put in: the don't-care bits are those no field reaches. -/
theorem Sys2Proof.encodeFields_and_dontCare (a d : Nat) (wr : Bool) :
    Sys2Proof.encodeFields a d wr &&& Sys2Proof.Config.dontCareMask = 0#32 := by
  unfold Sys2Proof.encodeFields
  ext k hk
  interval_cases k <;> cases wr <;>
    simp [Sys2Proof.Config.addrW, Sys2Proof.Config.addrLsb, Sys2Proof.Config.dataW, Sys2Proof.Config.dataLsb,
      Sys2Proof.Config.dirBit, Sys2Proof.Config.dontCareMask]

theorem Sys2Proof.Laws.CanonicalWord.read (a : Sys2Proof.Addr) :
    Sys2Proof.Laws.CanonicalWord.Statement (.read a) :=
  Sys2Proof.encodeFields_and_dontCare ..

theorem Sys2Proof.Laws.CanonicalWord.write (a : Sys2Proof.Addr) (d : Sys2Proof.Byte) :
    Sys2Proof.Laws.CanonicalWord.Statement (.write a d) :=
  Sys2Proof.encodeFields_and_dontCare ..
end

