-- ==== Sys2Proof/Laws/Step.lean ====
section
/-! SUPPORT. Laws/Step.lean: what `exec` and one step can do, said once; invariants are derived from these. -/

namespace Sys2Proof.Machine

/-- R64: the next state of a READ. -/
theorem exec_read (a : Addr) (s : State) :
    exec (.read a) s = .next ((((s.setCtrl .read).rsend (s.mem.read a))).setCtrl .idle) := rfl

/-- R65: the next state of a WRITE. -/
theorem exec_write (a : Addr) (d : Byte) (s : State) :
    exec (.write a d) s = .next { s with mem := s.mem.write a d, ctrl := .idle } := rfl

/-- Where the Dispatch Loop moves, the step is its move on the state without the turn used. -/
theorem step_of_coreMoves {s : State} (h : s.coreMoves) : step s = coreStep { s with turns := s.turns.tail } := by
  cases s
  rcases h with h | ⟨ts, h⟩ <;> cases h <;> rfl

theorem step_of_deliver {s : State} {w : Word} {ts : List Turn} (h : s.turns = .deliver w :: ts) :
    step s = .next ({ s with turns := ts }.deliver w) := by
  simp [step, advance, h, takeTurn]

theorem step_of_take {s : State} {ts : List Turn} (h : s.turns = .take :: ts) :
    step s = .next { s with turns := ts }.takeResponse := by
  simp [step, advance, h, takeTurn]

theorem step_of_reset {s : State} {ts : List Turn} (h : s.turns = .reset :: ts) :
    step s = .next { s with turns := ts }.resetDevice := by
  simp [step, advance, h, takeTurn]

/-- Whose move the next step is. -/
theorem turn_cases (s : State) :
    s.coreMoves ∨ (∃ w ts, s.turns = .deliver w :: ts) ∨ (∃ ts, s.turns = .take :: ts) ∨
      ∃ ts, s.turns = .reset :: ts := by
  unfold State.coreMoves
  rcases h : s.turns with _ | ⟨t, ts⟩
  · simp
  · cases t <;> simp

/-- R92: the move in `Init`. -/
theorem coreStep_of_init {s : State} (h : s.ctrl = .init) : coreStep s = .next s.initialise := by
  simp [coreStep, h]

/-- R12: the move in a busy control state. -/
theorem coreStep_of_busy {s : State} (h : s.ctrl = .read ∨ s.ctrl = .write) :
    coreStep s = .next (s.setCtrl .idle) := by
  rcases h with h | h <;> simp [coreStep, h]

/-- R62: the move in `Idle` with no word. -/
theorem coreStep_of_empty {s : State} (h : s.ctrl = .idle) (hw : s.wch = []) : coreStep s = .next s := by
  simp [coreStep, h, hw]

/-- R61: the move in `Idle` with a word. -/
theorem coreStep_of_word {s : State} {w : Word} {ws : List Word} (h : s.ctrl = .idle) (hw : s.wch = w :: ws) :
    coreStep s = exec (decode w) { s with wch := ws } := by
  simp [coreStep, h, State.wrecv_of_cons hw]

/-- What one move of the Dispatch Loop can do: complete the fill, wait, service a READ or service a WRITE; from the two
busy control states, return to `Idle`. -/
theorem coreStep_cases {s t : State} (h : coreStep s = .next t) :
    (s.ctrl = .init ∧ t = s.initialise) ∨
    ((s.ctrl = .read ∨ s.ctrl = .write) ∧ t = s.setCtrl .idle) ∨
    (s.ctrl = .idle ∧ s.wch = [] ∧ t = s) ∨
    (∃ w ws, s.ctrl = .idle ∧ s.wch = w :: ws ∧ exec (decode w) { s with wch := ws } = .next t) := by
  cases hc : s.ctrl
  · rw [coreStep_of_init hc] at h
    cases h; exact .inl ⟨rfl, rfl⟩
  · rcases hw : s.wch with _ | ⟨w, ws⟩
    · rw [coreStep_of_empty hc hw] at h
      cases h; exact .inr (.inr (.inl ⟨rfl, rfl, rfl⟩))
    · rw [coreStep_of_word hc hw] at h
      exact .inr (.inr (.inr ⟨w, ws, rfl, rfl, h⟩))
  · rw [coreStep_of_busy (.inl hc)] at h
    cases h; exact .inr (.inl ⟨.inl rfl, rfl⟩)
  · rw [coreStep_of_busy (.inr hc)] at h
    cases h; exact .inr (.inl ⟨.inr rfl, rfl⟩)

end Sys2Proof.Machine
end

