-- ==== Sys2Proof/Tests/Slice0.lean ====
section
/-! SUPPORT. Tests/Slice0.lean: the model's own tests, expected results from the spec's tables and worked examples, and for every
statement with hypotheses a named theorem that meets them. -/

open Sys2Proof Sys2Proof.Machine

namespace Sys2Proof.Tests

/-! ## Well-formedness: each check refuses an ill-formed term (R48) -/

theorem test_rd_address_too_wide : (Line.rd 0x8000).wellFormed = false ∧ (Line.rd 0x7FFF).wellFormed = true := by decide
theorem test_wr_address_too_wide : (Line.wr 0x8000 0).wellFormed = false ∧ (Line.wr 0x7FFF 0).wellFormed = true := by decide
theorem test_wr_byte_too_wide : (Line.wr 0 0x100).wellFormed = false ∧ (Line.wr 0 0xFF).wellFormed = true := by decide
theorem test_raw_too_wide : (Line.raw 0x100000000).wellFormed = false ∧ (Line.raw 0xFFFFFFFF).wellFormed = true := by decide
/-- R54: a transaction's operands are bounded by their types, so no `Instr` is ill-formed. -/
theorem test_every_instr_well_formed (i : Instr) : i.wellFormed = true := by
  cases i with
  | read a => simpa [Instr.wellFormed, Config.memSize] using a.isLt
  | write a d => simpa [Instr.wellFormed, Config.memSize, Config.dataW] using ⟨a.isLt, d.isLt⟩

/-! ## Decoding: words written out bit by bit from R40, and rows of 95_test_vectors.md section 4 -/

/-- bits 31 | 30..23 | 22..8 | 7..5 | 4 | 3 | 2 | 1..0 -/
theorem test_decode_read : decode 0b0_00000000_001001000110100_000_0_0_0_00#32 = .read 0x1234#15 := by decide
theorem test_decode_write : decode 0b0_10101011_001001000110100_000_0_0_1_00#32 = .write 0x1234#15 0xAB#8 := by decide
/-- section 4: every bit but bit 2; every bit set; the two complement rows; two arbitrary words -/
theorem test_decode_table :
    [0xFFFFFFFB#32, 0xFFFFFFFF#32, 0xFF8000FF#32, 0x807FFFFF#32, 0x12345678#32, 0xCAFEBABE#32].map decodeFields =
    [⟨0x7FFF#15, 0xFF#8, false⟩, ⟨0x7FFF#15, 0xFF#8, true⟩, ⟨0#15, 0xFF#8, true⟩, ⟨0x7FFF#15, 0#8, true⟩,
      ⟨0x3456#15, 0x24#8, false⟩, ⟨0x7EBA#15, 0x95#8, true⟩] := by decide
/-- a table row's bits are the word's own bits; more than 32 of them are no word -/
theorem test_decode_table_word :
    decodeTableWord 32 0x55923404 = some (.write 0x1234#15 0xAB#8) ∧ decodeTableWord 33 0 = none := by decide
/-- section 3: lowest bits, highest bits, over-wide values, a shift-and-OR detector -/
theorem test_encode_table :
    [encodeFields 1 1 true, encodeFields 0x4000 0x80 true, encodeFields 0x7FFF 0xFF true,
      encodeFields 0x9234 0x1AB true, encodeFields 0x8000 0 true, encodeFields 0xFFFF 0x100 false,
      encodeFieldsX 0x1234 0xAB true 0xFFFFFFFF#32, encodeFieldsX 0 0 false 0xFFFFFFFF#32] =
    [0x00800104#32, 0x40400004#32, 0x7FFFFF04#32, 0x55923404#32, 0x00000004#32, 0x007FFF00#32,
      0xD59234FF#32, 0x800000FB#32] := by decide

/-! ## The startup pattern: rows of 95_test_vectors.md section 2 -/

theorem test_fill_table :
    [0, 0xFF, 0x100, 0x1FE, 0x1FF, 0x200, 0x1234, 0x7EBA, 0x7F81, 0x7FFF].map fill =
    [0#8, 0xFF#8, 1#8, 0xFF#8, 0#8, 2#8, 0x46#8, 0x38#8, 0#8, 0x7E#8] := by decide
/-- R4: the sizes, masks and widths agree -/
theorem test_parameters_agree :
    Config.memSize = 2 ^ Config.addrW ∧ Config.dontCareMask = ~~~Config.careMask ∧
    Config.addrMask.toNat + 1 = 2 ^ Config.addrW ∧ Config.dataMask.toNat + 1 = 2 ^ Config.dataW := by decide

/-! ## One step each: rows of 95_test_vectors.md section 5 -/

/-- the launch state (R94) with the words `ws` waiting -/
def launchWith (ws : List Word) : State := { State.reset with ctrl := .idle, wch := ws }

/-- what a next state shows of one cell and of the trace -/
def seen (o : Host.Outcome State Fault Refusal) (a : Addr) : Option (Byte × List Byte) :=
  match o with
  | .next s => some (s.mem.read a, s.resp)
  | .fault _ => none
  | .refused _ => none

/-- T3: READ of the highest address, the data field all ones and ignored -/
theorem test_read_top : seen (step (launchWith [0x7FFFFF00#32])) 0x7FFF#15 = some (0x7E#8, [0x7E#8]) := by decide
/-- T4: READ with `/W` and `/CS` set -/
theorem test_read_flags_ignored : seen (step (launchWith [0x00010018#32])) 0x0100#15 = some (0x01#8, [0x01#8]) := by decide
/-- T7: WRITE with every bit set -/
theorem test_write_top : seen (step (launchWith [0xFFFFFFFF#32])) 0x7FFF#15 = some (0xFF#8, []) := by decide
/-- T5, T11: WRITE leaves the neighbour alone -/
theorem test_write_neighbour : seen (step (launchWith [0x55923404#32])) 0x1233#15 = some (0x45#8, []) := by decide
/-- R94: the first step after reset leaves the launch state -/
theorem test_launch : step State.reset = .next (launchWith []) := by rfl
/-- Q3: a READ before the WRITE sees the old value, one after it the new -/
theorem test_run_order :
    (run Memory.filled [0x00400000#32, 0x00C00004#32, 0x00400000#32]).2 = [0x40#8, 0x01#8] := by decide
/-- P7: strict first-in first-out order -/
theorem test_run_fifo :
    (run Memory.filled [0x00C00004#32, 0x00400000#32, 0x01400004#32, 0x00400000#32, 0x01C00004#32, 0x00400000#32]).2 =
      [0x01#8, 0x02#8, 0x03#8] := by decide
/-- a word placed by the host is serviced by the very next step -/
theorem test_fetch_word : step (State.reset.withFetchWord 32 0x55923404) =
    exec (.write 0x1234#15 0xAB#8) (launchWith []) := by rfl

/-! ## Witnesses: the hypotheses of each statement are met -/

theorem depth_pos : 0 < Config.rchDepth := Nat.succ_pos _

/-- a state whose response channel is full -/
def fullState (ws : List Word) : State := { launchWith ws with rch := List.replicate Config.rchDepth 0#8 }

theorem fullState_full (ws : List Word) : Config.rchDepth ≤ (fullState ws).rch.length := by
  simp [fullState]

theorem witness_DecodeEncodeIsIdentity :
    (Instr.read 0#15).wellFormed = true ∧ (Instr.write 0x7FFF#15 0xFF#8).wellFormed = true := by decide

theorem witness_DecoderIgnoresDontCareBits : 0x55923404#32 &&& 0x7FFFFF04#32 = 0xD59234FF#32 &&& 0x7FFFFF04#32 := by
  decide

theorem witness_DecoderExtractsTheFields : 14 < 15 ∧ 7 < 8 := by decide

theorem witness_SignificantBitsOfAWord :
    (0x00010000#32 &&& 4#32 = 0#32 ∧ 0xFF8100FB#32 &&& 4#32 = 0#32) ∧
    (0x55923404#32 &&& 4#32 = 4#32 ∧ 0xD59234FF#32 &&& 4#32 = 4#32) := by decide

theorem witness_ReservedAndInformationalBitsHaveNoEffect :
    (launchWith [0x55923404#32]).coreMoves ∧ (launchWith [0x55923404#32]).ctrl = .idle ∧
    (launchWith [0x55923404#32]).wch = [0x55923404#32] ∧
    0x55923404#32 &&& ~~~0x800000FB#32 = 0xD59234FF#32 &&& ~~~0x800000FB#32 :=
  ⟨.inl rfl, rfl, rfl, by decide⟩

theorem witness_ReadIgnoresTheDataField :
    (launchWith [0x007FFF00#32]).coreMoves ∧ (launchWith [0x007FFF00#32]).ctrl = .idle ∧
    (launchWith [0x007FFF00#32]).wch = [0x007FFF00#32] ∧ 0x007FFF00#32 &&& 4#32 = 0#32 ∧
    0x007FFF00#32 &&& ~~~0x7F800000#32 = 0x7FFFFF00#32 &&& ~~~0x7F800000#32 :=
  ⟨.inl rfl, rfl, rfl, by decide, by decide⟩

theorem witness_NotationLinesStandForTheirWords :
    (0x7FFF < 0x8000 ∧ 0xFF < 0x100) ∧ 0x8000 ≤ 0x8000 ∧ 0x100 ≤ 0x100 ∧ 2 ^ 32 ≤ 0x100000000 := by decide

theorem witness_ReadSendsTheAddressedByte : ∃ t u : State, (launchWith []).rch.length < Config.rchDepth ∧
    exec (.read 0x100#15) (launchWith []) = .next t ∧ exec (.read 0x100#15) t.takeResponse = .next u :=
  ⟨_, _, depth_pos, rfl, rfl⟩

theorem witness_WriteStoresTheByte : ∃ t u : State, (launchWith []).mem.wf ∧ (launchWith []).mem.read 0#15 = 0#8 ∧
    exec (.write 0#15 0xFF#8) (launchWith []) = .next t ∧ exec (.write 0#15 0#8) t = .next u :=
  ⟨_, _, Memory.filled_wf, by decide, rfl, rfl⟩

theorem witness_ReadFrame : (∃ t, exec (.read 0x7FFF#15) (launchWith []) = .next t) ∧
    (launchWith []).rch.length < Config.rchDepth := ⟨⟨_, rfl⟩, depth_pos⟩

theorem witness_WriteFrame : (∃ t, exec (.write 0x7FFF#15 0#8) (launchWith []) = .next t) ∧ 0#15 ≠ 0x7FFF#15 :=
  ⟨⟨_, rfl⟩, by decide⟩

theorem witness_ReadWithoutRoomRecordsOverrun : Config.rchDepth ≤ (fullState []).rch.length := fullState_full []

theorem witness_OverrunIsStickyAndExact :
    (∃ s t : State, s.overrun = true ∧ (∀ ts, s.turns ≠ .reset :: ts) ∧ step s = .next t) ∧
    ∃ s t : State, s.overrun = false ∧ step s = .next t ∧ t.overrun = true := by
  refine ⟨⟨{ launchWith [] with overrun := true }, _, rfl, by simp [launchWith, State.reset], rfl⟩,
    fullState [0#32], _, rfl, rfl, ?_⟩
  show (State.rsend 0#8 ((fullState []).setCtrl .read)).overrun = true
  rw [State.rsend_of_full _ (by simpa using fullState_full [])]
  rfl

theorem witness_ServiceHasExactlyOneEffect :
    ((launchWith [0#32]).coreMoves ∧ (launchWith [0#32]).ctrl = .idle ∧ (launchWith [0#32]).wch = [0#32] ∧
      (launchWith [0#32]).rch.length < Config.rchDepth) ∧
    ((fullState [4#32]).coreMoves ∧ (fullState [4#32]).ctrl = .idle ∧ (fullState [4#32]).wch = [4#32] ∧
      ((decodeFields 4#32).isWrite = false → (fullState [4#32]).rch.length < Config.rchDepth)) :=
  ⟨⟨.inl rfl, rfl, rfl, depth_pos⟩, .inl rfl, rfl, rfl, fun h => absurd h (by decide)⟩

/-- a WRITE to a neighbour and a READ of the address stand between -/
theorem witness_WriteThenReadReturnsTheValue :
    ∀ w ∈ [0x00800104#32, 0x00000000#32], ∀ d, decode w ≠ .write 0#15 d := by
  intro w hw d
  rcases List.mem_pair.1 hw with rfl | rfl
  · rw [decode_of_write (by decide)]
    intro h
    exact absurd (Instr.write.inj h).1 (by decide)
  · rw [decode_of_read (by decide)]
    exact Instr.noConfusion

theorem witness_AccessesHaveNoHiddenSideEffect :
    (∃ t, exec (.read 0#15) (launchWith []) = .next t) ∧
    (∀ w ∈ [0x00800104#32, 0x00000000#32], ∀ d, decode w ≠ .write 0#15 d) ∧
    ∃ t u, exec (.write 0#15 7#8) (launchWith []) = .next t ∧ exec (.write 0#15 7#8) t = .next u :=
  ⟨⟨_, rfl⟩, witness_WriteThenReadReturnsTheValue, _, _, rfl, rfl⟩

/-- with no turn listed, and with the Dispatch Loop's turn listed first -/
theorem witness_StepRunsTheDecodedWord :
    ((launchWith [0#32, 4#32]).coreMoves ∧ (launchWith [0#32, 4#32]).ctrl = .idle ∧
      (launchWith [0#32, 4#32]).wch = 0#32 :: [4#32]) ∧
    State.coreMoves { launchWith [4#32] with turns := [.core, .take] } :=
  ⟨⟨.inl rfl, rfl, rfl⟩, .inr ⟨_, rfl⟩⟩

theorem witness_EmptyWordChannelMeansWaiting :
    ((launchWith []).ctrl = .idle ∧ (launchWith []).wch = [] ∧ (launchWith []).coreMoves ∧ (launchWith []).turns = []) ∧
    ((launchWith [4#32]).coreMoves ∧ (launchWith [4#32]).ctrl = .idle ∧ (launchWith [4#32]).wch = [4#32]) :=
  ⟨⟨rfl, rfl, .inl rfl, rfl⟩, .inl rfl, rfl, rfl⟩

theorem witness_SamplerMovesTouchOnlyTheirChannel :
    State.turns { launchWith [] with turns := [.deliver 4#32] } = .deliver 4#32 :: [] ∧
    (State.turns { launchWith [] with turns := [.take], rch := [1#8] } = .take :: [] ∧
      State.rch { launchWith [] with turns := [.take], rch := [1#8] } = 1#8 :: []) ∧
    (State.turns { launchWith [] with turns := [.take] } = .take :: [] ∧
      State.rch { launchWith [] with turns := [.take] } = []) := by decide

/-- a service, and a delivery -/
theorem witness_WordChannelIsFirstInFirstOut :
    (∃ t, (∀ ts, (launchWith [0#32]).turns ≠ .reset :: ts) ∧ step (launchWith [0#32]) = .next t) ∧
    ∃ t, step { launchWith [] with turns := [.deliver 4#32] } = .next t ∧ t.wch = [4#32] :=
  ⟨⟨_, by simp [launchWith, State.reset], rfl⟩, _, rfl, rfl⟩

theorem witness_OnlyAServicedWriteChangesMemory : ∃ t, (launchWith [0xFFFFFFFF#32]).ctrl ≠ .init ∧
    (∀ ts, (launchWith [0xFFFFFFFF#32]).turns ≠ .reset :: ts) ∧ step (launchWith [0xFFFFFFFF#32]) = .next t ∧
    t.mem.read 0x7FFF#15 ≠ (launchWith [0xFFFFFFFF#32]).mem.read 0x7FFF#15 :=
  ⟨_, by decide, by simp [launchWith, State.reset], rfl, by decide⟩

theorem witness_OnlyAServicedReadResponds : ∃ t, (∀ ts, (launchWith [0#32]).turns ≠ .reset :: ts) ∧
    step (launchWith [0#32]) = .next t ∧ t.resp ≠ (launchWith [0#32]).resp :=
  ⟨_, by simp [launchWith, State.reset], rfl, by decide⟩

theorem witness_LawsOfTheRunFunction : 0x55923404#32 &&& 0x7FFFFF04#32 = 0x559234FF#32 &&& 0x7FFFFF04#32 ∧
    0#32 &&& 4#32 = 0#32 ∧ 0#32 &&& ~~~0x7F800000#32 = 0x7F800000#32 &&& ~~~0x7F800000#32 := by decide

/-- a word waits, another is delivered during its service, the response is taken, and the queue drains -/
theorem witness_EffectsOccurInDeliveryOrder :
    ∃ s t : State, Turn.reset ∉ s.turns.take 4 ∧ stepN 4 s = .next t ∧ t.quiescent ∧ t.overrun = false ∧
      acceptedN 4 s = [4#32] :=
  ⟨{ launchWith [0#32] with turns := [.core, .deliver 4#32, .take, .core] }, _, by decide, rfl, ⟨rfl, rfl⟩, rfl, rfl⟩

theorem witness_WaitingWordsAreAllServed : (launchWith [0#32, 4#32]).ctrl = .idle ∧ (launchWith [0#32, 4#32]).turns = [] ∧
    (launchWith [0#32, 4#32]).pWait :=
  ⟨rfl, rfl, depth_pos⟩

theorem witness_StepKeepsTheInvariant : ∃ t, State.reset.Inv ∧ step State.reset = .next t :=
  ⟨_, ⟨Memory.filled_wf, .inl rfl, fun _ => ⟨rfl, rfl, rfl, rfl⟩, .inr (Nat.zero_le _), Nat.zero_le _,
    fun _ => List.suffix_refl _⟩, rfl⟩

/-- the first address whose sum reaches 256, a reset, and the fill -/
theorem witness_ResetFillsEveryCell :
    256 ≤ ((0x1FF#15).toNat &&& 0xFF) + ((0x1FF#15).toNat >>> 8) ∧
    (∃ t, step { launchWith [] with turns := [.reset] } = .next t) ∧
    ∃ t, State.reset.coreMoves ∧ State.reset.ctrl = .init ∧ step State.reset = .next t :=
  ⟨by decide, ⟨_, rfl⟩, _, .inl rfl, rfl, rfl⟩

theorem witness_EachRowOfTheFillHoldsEveryByteOnce : 127 < 128 ∧ 255 < 256 := by decide

theorem witness_FillOrderCannotBeObserved : State.reset.mem.wf ∧
    ∀ a : Addr, a ∈ (List.range 32768).map (BitVec.ofNat 15) :=
  ⟨Memory.filled_wf, fun a => List.mem_map.2 ⟨a.toNat, List.mem_range.2 a.isLt, by simp⟩⟩

theorem witness_ResetReestablishesTheResetState :
    State.turns { launchWith [4#32] with turns := [.reset, .core] } = .reset :: [.core] := rfl

theorem witness_ResetIsHistoryFree : ∃ s s' t t' : State, s.turns = .reset :: [.core] ∧ s'.turns = .reset :: [.core] ∧
    s ≠ s' ∧ stepN (1 + 1) s = .next t ∧ stepN (1 + 1) s' = .next t' ∧ t.overrun = false :=
  ⟨{ launchWith [] with turns := [.reset, .core] }, { launchWith [4#32] with turns := [.reset, .core], resp := [1#8] },
    _, _, rfl, rfl, by decide, rfl, rfl, rfl⟩

theorem witness_WordDeliveredDuringTheFillWaits :
    State.ctrl { State.reset with turns := [.deliver 4#32] } = .init ∧
    State.wch { State.reset with turns := [.deliver 4#32] } = [] ∧
    State.turns { State.reset with turns := [.deliver 4#32] } = [.deliver 4#32] := ⟨rfl, rfl, rfl⟩

theorem witness_DrawnBlockMakesTheSameAccess : (∃ t, (launchWith [4#32]).coreMoves ∧ (launchWith [4#32]).ctrl = .idle ∧
    (launchWith [4#32]).wch = [4#32] ∧ step (launchWith [4#32]) = .next t) ∧ State.reset.ctrl ≠ .idle :=
  ⟨⟨_, .inl rfl, rfl, rfl, rfl⟩, by decide⟩

theorem witness_DebugObserverTellsTheService : ∃ t r, (launchWith [0x00010018#32]).coreMoves ∧
    debugObserve true (launchWith [0x00010018#32]) = some r ∧ step (launchWith [0x00010018#32]) = .next t ∧
    r.nW = true ∧ r.nCS = true ∧ r.response = some 1#8 :=
  ⟨_, _, .inl rfl, rfl, rfl, by decide, by decide, by decide⟩

/-- the READ case's inner hypothesis, room for the response -/
theorem witness_EveryWordIsLegal : (launchWith []).rch.length < Config.rchDepth := depth_pos

end Sys2Proof.Tests
end

/-! ## The startup pattern (R19): its arithmetic, and the steps that leave it in every cell -/

section
namespace Sys2Proof.Machine

/-- The pattern's sum, by row (`i / 256`) and column (`i % 256`) instead of by mask and shift. -/
theorem and_add_shiftRight_eq (i : Nat) : (i &&& 0xFF) + (i >>> 8) = i % 256 + i / 256 := by
  rw [Nat.and_two_pow_sub_one_eq_mod i 8, Nat.shiftRight_eq_div_pow]

@[simp] theorem fill_toNat (i : Nat) : (fill i).toNat = ((i &&& 0xFF) + (i >>> 8)) % 256 := by
  simp [fill]

theorem addr_shiftRight_le (a : Addr) : a.toNat >>> 8 ≤ 127 := by
  have ha : a.toNat < 32768 := a.isLt
  rw [Nat.shiftRight_eq_div_pow]
  omega

/-- The sum of column and row first reaches 256 at row 1, column 255. -/
theorem le_of_fill_sum_wraps {i : Nat} (h : 256 ≤ (i &&& 0xFF) + (i >>> 8)) : 0x01FF ≤ i := by
  rw [and_add_shiftRight_eq] at h
  omega

/-- Below 512 the pattern's reduction modulo 256 subtracts 256 at most once. -/
theorem fill_toNat_of_wraps {i : Nat} (h : 256 ≤ (i &&& 0xFF) + (i >>> 8))
    (hi : (i &&& 0xFF) + (i >>> 8) < 512) : (fill i).toNat = (i &&& 0xFF) + (i >>> 8) - 256 := by
  rw [fill_toNat, Nat.mod_eq_sub_mod h, Nat.mod_eq_of_lt (by omega)]

@[simp] theorem State.reset_mem : State.reset.mem = Memory.filled := rfl

theorem step_mem_of_reset {s t : State} {ts : List Turn} (h : s.turns = .reset :: ts) (ht : step s = .next t) :
    t.mem = Memory.filled := by
  rw [step_of_reset h] at ht
  cases ht
  rfl

/-- R92: where the Dispatch Loop moves in `Init`, the step is the fill. -/
theorem step_of_init {s : State} (hm : s.coreMoves) (hc : s.ctrl = .init) :
    step s = .next { s with turns := s.turns.tail }.initialise :=
  (step_of_coreMoves hm).trans (coreStep_of_init hc)

theorem step_mem_of_init {s t : State} (hm : s.coreMoves) (hc : s.ctrl = .init) (ht : step s = .next t) :
    t.mem = Memory.filled := by
  rw [step_of_init hm hc] at ht
  cases ht
  rfl

/-- Settles O34: the reset memory reads as `fill`, whose sum is at most 127 + 255 < 512, so it wraps at most once; a reset
turn and the fill step both leave the filled memory. -/
theorem resetFillsEveryCell : Obligations.ResetFillsEveryCell := by
  refine ⟨fun a => ?pattern, fun s t ts h ht a => ?everyReset, fun s t hm hc ht a => ?fillStep, by decide⟩
  case pattern =>
    have hrow := addr_shiftRight_le a
    have hcol : a.toNat &&& 0xFF ≤ 255 := Nat.and_le_right
    have hsum : (a.toNat &&& 0xFF) + (a.toNat >>> 8) ≤ 382 := Nat.add_le_add hcol hrow
    rw [State.reset_mem, Memory.read_filled]
    exact ⟨fill_toNat _, hrow, hcol, hsum, fun hw =>
      ⟨le_of_fill_sum_wraps hw, fill_toNat_of_wraps hw (Nat.lt_of_le_of_lt hsum (by decide))⟩⟩
  case everyReset => rw [step_mem_of_reset h ht, State.reset_mem]
  case fillStep => rw [step_mem_of_init hm hc ht, State.reset_mem]

end Sys2Proof.Machine
end

/-! ## The fields of a canonical word (R47, R57, R58) -/

section
namespace Sys2Proof

theorem getLsbD_addressOf (w : Word) (k : Nat) :
    (addressOf w).getLsbD k = (decide (k < 15) && w.getLsbD (8 + k)) := by
  by_cases hk : k < 15
  · interval_cases k <;> simp [addressOf, Config.addrLsb, Config.addrMask]
  · simp [hk, BitVec.getLsbD_of_ge _ k (not_lt.1 hk)]

theorem getLsbD_dataOf (w : Word) (k : Nat) :
    (dataOf w).getLsbD k = (decide (k < 8) && w.getLsbD (23 + k)) := by
  by_cases hk : k < 8
  · interval_cases k <;> simp [dataOf, Config.dataLsb, Config.dataMask]
  · simp [hk, BitVec.getLsbD_of_ge _ k (not_lt.1 hk)]

/-- R53: masking with `0b100` leaves bit 2 alone. -/
theorem isWriteOf_eq_getLsbD (w : Word) : isWriteOf w = w.getLsbD 2 := by
  have hmask : w &&& (1#32 <<< Config.dirBit) = if w.getLsbD 2 then 4#32 else 0#32 := BitVec.and_twoPow w 2
  rw [isWriteOf, hmask]
  cases w.getLsbD 2 <;> rfl

/-- Bit by bit, an encoded word is its three fields, each reduced to its width and at its position. -/
theorem getLsbD_encodeFields (a d : Nat) (wr : Bool) (k : Nat) :
    (encodeFields a d wr).getLsbD k =
      (decide (8 ≤ k) && (BitVec.ofNat 15 a).getLsbD (k - 8) ||
        decide (23 ≤ k) && (BitVec.ofNat 8 d).getLsbD (k - 23) || decide (k = 2) && wr) := by
  have hdir : (if wr then 1#32 <<< Config.dirBit else 0#32).getLsbD k = (decide (k = 2) && wr) := by
    cases wr with
    | false => simp
    | true => exact (BitVec.getLsbD_twoPow 2 k).trans (by simp [eq_comm])
  rw [encodeFields, BitVec.getLsbD_or, BitVec.getLsbD_or, hdir]
  by_cases hk : k < 32
  · simp [Config.addrW, Config.addrLsb, Config.dataW, Config.dataLsb, hk, ← decide_not]
  · have ha : (BitVec.ofNat 15 a).getLsbD (k - 8) = false := BitVec.getLsbD_of_ge _ _ (by omega)
    have hd : (BitVec.ofNat 8 d).getLsbD (k - 23) = false := BitVec.getLsbD_of_ge _ _ (by omega)
    simp [hk, ha, hd]

@[simp] theorem addressOf_encodeFields (a d : Nat) (wr : Bool) :
    addressOf (encodeFields a d wr) = BitVec.ofNat 15 a := by
  refine BitVec.eq_of_getLsbD_eq fun k hk => ?_
  rw [getLsbD_addressOf, getLsbD_encodeFields]
  simp [hk, show ¬ 23 ≤ 8 + k by omega, show 8 + k ≠ 2 by omega]

@[simp] theorem dataOf_encodeFields (a d : Nat) (wr : Bool) :
    dataOf (encodeFields a d wr) = BitVec.ofNat 8 d := by
  refine BitVec.eq_of_getLsbD_eq fun k hk => ?_
  have ha : (BitVec.ofNat 15 a).getLsbD (23 + k - 8) = false := BitVec.getLsbD_of_ge _ _ (by omega)
  rw [getLsbD_dataOf, getLsbD_encodeFields, ha]
  simp [hk, show 23 + k ≠ 2 by omega]

@[simp] theorem isWriteOf_encodeFields (a d : Nat) (wr : Bool) : isWriteOf (encodeFields a d wr) = wr := by
  rw [isWriteOf_eq_getLsbD, getLsbD_encodeFields]
  simp

end Sys2Proof
end

/-! ## Memory: R26 and R30, over the words serviced between two accesses -/

section
namespace Sys2Proof.Machine

theorem Memory.insert_insert_same (m : Memory) (k : Nat) (v : Byte) : (m.insert k v).insert k v = m.insert k v := by
  induction m with
  | nil => simp [Memory.insert]
  | cons c m ih =>
    rcases lt_trichotomy k c.1 with hlt | rfl | hgt
    · simp [Memory.insert, hlt]
    · simp [Memory.insert]
    · simp [Memory.insert, hgt.not_gt, hgt.ne, ih]

theorem Memory.erase_erase_same (m : Memory) (k : Nat) : (m.erase k).erase k = m.erase k := by
  induction m with
  | nil => rfl
  | cons c m ih => by_cases hc : c.1 = k <;> simp [Memory.erase, hc, ih]

/-- R30: a WRITE is idempotent, in every memory, canonical or not. -/
theorem Memory.write_write_same (m : Memory) (a : Addr) (v : Byte) : (m.write a v).write a v = m.write a v := by
  by_cases hv : v = fill a.toNat
  · simp only [Memory.write, if_pos hv, Memory.erase_erase_same]
  · simp only [Memory.write, if_neg hv, Memory.insert_insert_same]

theorem run_encode_read (m : Memory) (a : Addr) (ws : List Word) :
    run m (encode (.read a) :: ws) = ((run m ws).1, m.read a :: (run m ws).2) := by
  rw [run_cons_of_read (by simp [encode])]
  simp [encode]

theorem run_encode_write (m : Memory) (a : Addr) (d : Byte) (ws : List Word) :
    run m (encode (.write a d) :: ws) = run (m.write a d) ws := by
  rw [run_cons_of_write (by simp [encode])]
  simp [encode]

/-- R71: runs compose. -/
theorem run_append (m : Memory) (us vs : List Word) :
    run m (us ++ vs) = ((run (run m us).1 vs).1, (run m us).2 ++ (run (run m us).1 vs).2) := by
  induction us generalizing m with
  | nil => rfl
  | cons u us ih =>
    rw [List.cons_append]
    cases hu : isWriteOf u
    · simp [run_cons_of_read hu, ih]
    · simp [run_cons_of_write hu, ih]

theorem run_append_encode_read (m : Memory) (a : Addr) (ws : List Word) :
    run m (ws ++ [encode (.read a)]) = ((run m ws).1, (run m ws).2 ++ [(run m ws).1.read a]) := by
  rw [run_append, run_encode_read, run_nil]

/-- Whether `w` is a WRITE to `a`. -/
def writesTo (a : Addr) (w : Word) : Bool := (decodeFields w).isWrite && (decodeFields w).address == a

theorem writesTo_eq_true {a : Addr} {w : Word} : writesTo a w = true ↔ ∃ d, decode w = .write a d := by
  cases hw : isWriteOf w
  · simp [writesTo, decode_of_read, hw]
  · simp [writesTo, decode_of_write, hw]

/-- R30: a cell reads as the data of the last WRITE to it; with none, it reads as before. -/
theorem read_run (m : Memory) (ws : List Word) (a : Addr) :
    (run m ws).1.read a = (ws.filter (writesTo a)).getLast?.elim (m.read a) dataOf := by
  induction ws generalizing m with
  | nil => rfl
  | cons w ws ih =>
    cases hw : isWriteOf w
    case false =>
      have hskip : writesTo a w = false := by simp [writesTo, hw]
      rw [run_cons_of_read hw, ih, List.filter_cons_of_neg (by simp [hskip])]
    case true =>
      rw [run_cons_of_write hw, ih]
      by_cases ha : addressOf w = a
      · have hhit : writesTo a w = true := by simp [writesTo, hw, ha]
        rw [List.filter_cons_of_pos hhit, List.getLast?_cons, ← ha, Memory.read_write_same]
        cases (ws.filter (writesTo (addressOf w))).getLast? <;> rfl
      · have hskip : writesTo a w = false := by simp [writesTo, ha]
        rw [List.filter_cons_of_neg (by simp [hskip]), Memory.read_write_other m (Ne.symm ha)]

/-- Words that do not write a cell leave it as it reads. -/
theorem read_run_of_no_write {a : Addr} {ws : List Word} (h : ∀ w ∈ ws, ∀ d, decode w ≠ .write a d) (m : Memory) :
    (run m ws).1.read a = m.read a := by
  have hnone : ws.filter (writesTo a) = [] :=
    List.filter_eq_nil_iff.2 fun w hw hwr => (writesTo_eq_true.1 hwr).elim (h w hw)
  rw [read_run, hnone]
  rfl

theorem exec_read_mem {a : Addr} {s t : State} (h : exec (.read a) s = .next t) : t.mem = s.mem := by
  rw [exec_read] at h
  cases h
  simp

theorem exec_write_mem {a : Addr} {d : Byte} {s t : State} (h : exec (.write a d) s = .next t) :
    t.mem = s.mem.write a d := by
  rw [exec_write] at h
  cases h
  rfl

/-- Settles O20: the words between leave the cell as the WRITE made it. -/
theorem writeThenReadReturnsTheValue : Obligations.WriteThenReadReturnsTheValue := by
  intro m a v ws hws
  refine ⟨(run (m.write a v) ws).1, (run (m.write a v) ws).2, ?_⟩
  rw [List.cons_append, run_encode_write, run_append_encode_read, read_run_of_no_write hws, Memory.read_write_same]

/-- Settles O21: a READ keeps the memory and the words between do not write the cell, so both READs see one byte;
`Memory.write` is idempotent; the last part is `read_run` from the filled memory. -/
theorem accessesHaveNoHiddenSideEffect : Obligations.AccessesHaveNoHiddenSideEffect := by
  refine ⟨fun a s t h => exec_read_mem h, fun m a ws hws => ?readTwice, fun a d s t u ht hu => ?writeTwice,
    fun ws a => ?lastWrite⟩
  case readTwice =>
    refine ⟨(run m ws).1, m.read a, (run m ws).2, ?_⟩
    rw [List.cons_append, run_encode_read, run_append_encode_read, read_run_of_no_write hws, List.cons_append]
  case writeTwice =>
    rw [exec_write_mem hu, exec_write_mem ht, Memory.write_write_same]
  case lastWrite =>
    rw [read_run, Memory.read_filled]
    change _ = match (ws.filter (writesTo a)).getLast? with | some w => (dataOf w).toNat | none => _
    cases (ws.filter (writesTo a)).getLast? with
    | none => exact fill_toNat _
    | some w => rfl

end Sys2Proof.Machine
end

/-! ## The bits of a word that reach its effect (R41, R43 to R45) -/

section
namespace Sys2Proof

/-- R41: the mask-and-match form of the direction bit. -/
theorem and_four_eq (w : Word) : w &&& 4#32 = if isWriteOf w then 4#32 else 0#32 := by
  rw [isWriteOf_eq_getLsbD]
  exact BitVec.and_twoPow w 2

theorem isWriteOf_eq_false_iff {w : Word} : isWriteOf w = false ↔ w &&& 4#32 = 0#32 := by
  rw [and_four_eq]
  cases isWriteOf w <;> decide

theorem getLsbD_eq_of_and_eq {w v m : Word} (h : w &&& m = v &&& m) {k : Nat} (hk : m.getLsbD k = true) :
    w.getLsbD k = v.getLsbD k := by
  simpa [hk] using congrArg (fun u : Word => u.getLsbD k) h

theorem addressOf_eq_of_and_eq {w v m : Word} (hm : ∀ k < 15, m.getLsbD (8 + k) = true) (h : w &&& m = v &&& m) :
    addressOf w = addressOf v := by
  refine BitVec.eq_of_getLsbD_eq fun k hk => ?_
  rw [getLsbD_addressOf, getLsbD_addressOf, getLsbD_eq_of_and_eq h (hm k hk)]

theorem dataOf_eq_of_and_eq {w v m : Word} (hm : ∀ k < 8, m.getLsbD (23 + k) = true) (h : w &&& m = v &&& m) :
    dataOf w = dataOf v := by
  refine BitVec.eq_of_getLsbD_eq fun k hk => ?_
  rw [getLsbD_dataOf, getLsbD_dataOf, getLsbD_eq_of_and_eq h (hm k hk)]

theorem isWriteOf_eq_of_and_eq {w v m : Word} (hm : m.getLsbD 2 = true) (h : w &&& m = v &&& m) :
    isWriteOf w = isWriteOf v := by
  rw [isWriteOf_eq_getLsbD, isWriteOf_eq_getLsbD, getLsbD_eq_of_and_eq h hm]

/-- R43, R44: the three fields lie outside the reserved and the informational bits. -/
theorem decodeFields_eq_of_and_careMask_eq {w v : Word} (h : w &&& ~~~0x800000FB#32 = v &&& ~~~0x800000FB#32) :
    decodeFields w = decodeFields v := by
  rw [decodeFields, decodeFields, addressOf_eq_of_and_eq (by decide) h, dataOf_eq_of_and_eq (by decide) h,
    isWriteOf_eq_of_and_eq (by decide) h]

/-- R45: the address and the direction bit lie outside the data field. -/
theorem decode_eq_of_read_of_and_eq {w v : Word} (hw : isWriteOf w = false)
    (h : w &&& ~~~0x7F800000#32 = v &&& ~~~0x7F800000#32) : decode w = decode v := by
  have hv : isWriteOf v = false := (isWriteOf_eq_of_and_eq (by decide) h).symm.trans hw
  rw [decode_of_read hw, decode_of_read hv, addressOf_eq_of_and_eq (by decide) h]

/-- Settles O7: split on the direction bit, the masked word and the decoded transaction following it alike. -/
theorem bitTwoSelectsTheTransaction : Obligations.BitTwoSelectsTheTransaction := by
  intro w
  cases hw : isWriteOf w with
  | false => exact .inl ⟨by simp [and_four_eq, hw], decode_of_read hw⟩
  | true => exact .inr ⟨by simp [and_four_eq, hw], decode_of_write hw⟩

namespace Machine

/-- R61: a service is the meaning of the decoded head on the state without the head and the turn used. -/
theorem step_of_word {s : State} {w : Word} {ws : List Word} (hm : s.coreMoves) (hc : s.ctrl = .idle)
    (hw : s.wch = w :: ws) : step s = exec (decode w) { s with wch := ws, turns := s.turns.tail } :=
  (step_of_coreMoves hm).trans (coreStep_of_word hc hw)

/-- A service depends on its word only through the decoded transaction. -/
theorem step_replace_head {s : State} {w v : Word} {ws : List Word} (hm : s.coreMoves) (hc : s.ctrl = .idle)
    (hw : s.wch = w :: ws) (h : decode w = decode v) : step s = step { s with wch := v :: ws } := by
  have hv : step { s with wch := v :: ws } = exec (decode v) { s with wch := ws, turns := s.turns.tail } :=
    step_of_word (s := { s with wch := v :: ws }) hm hc rfl
  rw [step_of_word hm hc hw, hv, h]

/-- Settles O10: words that agree on the decoded bits decode alike, and a service sees nothing else of its word. -/
theorem reservedAndInformationalBitsHaveNoEffect : Obligations.ReservedAndInformationalBitsHaveNoEffect :=
  fun _ _ _ _ hm hc hw h =>
    step_replace_head hm hc hw (congrArg Fields.toInstr (decodeFields_eq_of_and_careMask_eq h))

/-- Settles O11: the data field is bits 23 to 30 of every word, and a READ decodes to its address alone. -/
theorem readIgnoresTheDataField : Obligations.ReadIgnoresTheDataField := by
  refine ⟨fun w k hk => ?extracted, fun s w v ws hm hc hw hread h => ?ignored⟩
  case extracted => rw [decodeFields_data, getLsbD_dataOf, decide_eq_true hk, Bool.true_and]
  case ignored =>
    exact step_replace_head hm hc hw (decode_eq_of_read_of_and_eq (isWriteOf_eq_false_iff.2 hread) h)

end Machine

end Sys2Proof
end

/-! ## The decoder as formulas on numbers, and over-wide encoder inputs (R51 to R53, R58) -/

section
namespace Sys2Proof

/-- R51: as a number, the formula itself; its mask keeps the value below the width. -/
theorem addressOf_toNat (w : Word) : (addressOf w).toNat = (w.toNat >>> 8) &&& 0x7FFF := by
  have hwidth : (w.toNat >>> 8) &&& 0x7FFF < 2 ^ 15 := Nat.and_lt_two_pow _ (by decide)
  rw [addressOf, BitVec.toNat_setWidth, BitVec.toNat_and, BitVec.toNat_ushiftRight]
  exact Nat.mod_eq_of_lt hwidth

/-- R52: as a number, the formula itself. -/
theorem dataOf_toNat (w : Word) : (dataOf w).toNat = (w.toNat >>> 23) &&& 0xFF := by
  have hwidth : (w.toNat >>> 23) &&& 0xFF < 2 ^ 8 := Nat.and_lt_two_pow _ (by decide)
  rw [dataOf, BitVec.toNat_setWidth, BitVec.toNat_and, BitVec.toNat_ushiftRight]
  exact Nat.mod_eq_of_lt hwidth

/-- R53: the direction bit as a mask of the word's number. -/
theorem isWriteOf_eq_true_iff {w : Word} : isWriteOf w = true ↔ w.toNat &&& 0b100 ≠ 0 := by
  rw [← Bool.not_eq_false, isWriteOf_eq_false_iff, ← BitVec.toNat_inj, BitVec.toNat_and]
  rfl

theorem decode_eq_ite (w : Word) :
    decode w = if isWriteOf w = true then .write (addressOf w) (dataOf w) else .read (addressOf w) := by
  cases hw : isWriteOf w with
  | false => exact decode_of_read hw
  | true => exact decode_of_write hw

/-- R58: the round trip for every natural input, each field reduced modulo its width. -/
theorem decodeFields_encodeFields (a d : Nat) (wr : Bool) :
    decodeFields (encodeFields a d wr) = ⟨BitVec.ofNat 15 a, BitVec.ofNat 8 d, wr⟩ := by
  simp [decodeFields]

/-- Settles O3: the round trip, read as numbers; the two examples are instances of it. -/
theorem overWideFieldsAreMasked : Obligations.OverWideFieldsAreMasked := by
  refine ⟨fun a d wr => ?_, decodeFields_encodeFields 0x9234 0x1AB true, decodeFields_encodeFields 0x8000 0x00 true⟩
  rw [decodeFields_encodeFields]
  exact ⟨BitVec.toNat_ofNat a 15, BitVec.toNat_ofNat d 8, rfl⟩

/-- Settles O5: the outputs as numbers, their bits, and their use by `decode`; the listed corner cases are evaluated. -/
theorem decoderExtractsTheFields : Obligations.DecoderExtractsTheFields := by
  refine ⟨fun w => ⟨addressOf_toNat w, dataOf_toNat w, isWriteOf_eq_true_iff⟩,
    fun w => ⟨fun k hk => ?addressBit, fun k hk => ?dataBit, isWriteOf_eq_getLsbD w⟩, decode_eq_ite,
    by decide, by decide, by decide⟩
  case addressBit => rw [decodeFields_address, getLsbD_addressOf, decide_eq_true hk, Bool.true_and]
  case dataBit => rw [decodeFields_data, getLsbD_dataOf, decide_eq_true hk, Bool.true_and]

end Sys2Proof
end

/-! ## The two transactions and the service (R64, R65, R69) -/

section
namespace Sys2Proof.Machine

/-- R64 under P-WAIT: the next state of a READ whose response finds room. -/
theorem exec_read_of_room {s : State} (a : Addr) (h : s.rch.length < Config.rchDepth) :
    exec (.read a) s = .next { s with
      rch := s.rch ++ [s.mem.read a], resp := s.resp ++ [s.mem.read a], ctrl := .idle } := by
  have hroom : (s.setCtrl .read).rch.length < Config.rchDepth := h
  rw [exec_read, State.rsend_of_room _ hroom]
  rfl

theorem exec_read_resp {a : Addr} {s t : State} (h : exec (.read a) s = .next t) :
    t.resp = s.resp ++ [s.mem.read a] := by
  rw [exec_read] at h
  cases h
  simp

/-- R65: writing the value a cell already holds changes nothing. The canonical form makes memories that read alike equal. -/
theorem Memory.write_read_self {m : Memory} (hm : m.wf) (a : Addr) : m.write a (m.read a) = m := by
  refine Memory.eq_of_read (Memory.write_wf hm a _) hm fun b => ?_
  by_cases hb : b = a
  · rw [hb, Memory.read_write_same]
  · exact Memory.read_write_other m hb _

/-- R43, D8: the decoder does not read the `/W` bit. -/
theorem decode_xor_nW (w : Word) : decode (w ^^^ 0x00000008#32) = decode w := by
  have hmask : (w ^^^ 0x00000008#32) &&& ~~~0x800000FB#32 = w &&& ~~~0x800000FB#32 := by
    simp [← BitVec.toNat_inj, Nat.and_xor_distrib_right]
  exact congrArg Fields.toInstr (decodeFields_eq_of_and_careMask_eq hmask)

/-- R61, R64: the service of a READ word whose response finds room. -/
theorem step_of_read_word {s : State} {w : Word} {ws : List Word} (hm : s.coreMoves) (hc : s.ctrl = .idle)
    (hw : s.wch = w :: ws) (hread : isWriteOf w = false) (hroom : s.rch.length < Config.rchDepth) :
    step s = .next { s with
      wch := ws, turns := s.turns.tail, ctrl := .idle,
      rch := s.rch ++ [s.mem.read (addressOf w)], resp := s.resp ++ [s.mem.read (addressOf w)] } := by
  rw [step_of_word hm hc hw, decode_of_read hread]
  exact exec_read_of_room _ hroom

/-- R61, R65: the service of a WRITE word. -/
theorem step_of_write_word {s : State} {w : Word} {ws : List Word} (hm : s.coreMoves) (hc : s.ctrl = .idle)
    (hw : s.wch = w :: ws) (hwrite : isWriteOf w = true) :
    step s = .next { s with
      wch := ws, turns := s.turns.tail, ctrl := .idle, mem := s.mem.write (addressOf w) (dataOf w) } := by
  rw [step_of_word hm hc hw, decode_of_write hwrite]
  exact exec_write ..

/-- Settles O14: the memory after a WRITE is `Memory.write`, whose laws say what every cell reads as. -/
theorem writeStoresTheByte : Obligations.WriteStoresTheByte := by
  refine ⟨fun a d s => ⟨s.mem.write a d, exec_write a d s, Memory.read_write_same .., fun b hb => ?otherCell,
      fun hwf hd => ?heldValue⟩,
    fun a d e s t u _ hu => ?secondWrite, fun w => (decode_xor_nW w).symm, _, rfl, by decide, by decide, rfl⟩
  case otherCell => exact Memory.read_write_other _ hb d
  case heldValue => rw [← hd, Memory.write_read_self hwf]
  case secondWrite => rw [exec_write_mem hu, Memory.read_write_same]

/-- Settles O19: split on the direction bit; each kind of service answers its one next state, whose fields are read off. -/
theorem serviceHasExactlyOneEffect : Obligations.ServiceHasExactlyOneEffect := by
  intro s w ws hm hc hw hroom
  rw [decodeFields_isWrite] at hroom ⊢
  cases hdir : isWriteOf w with
  | false => exact ⟨_, step_of_read_word hm hc hw hdir (hroom hdir), rfl, rfl, rfl, rfl, rfl, rfl, rfl⟩
  | true =>
    exact ⟨_, step_of_write_word hm hc hw hdir, rfl, rfl, rfl, rfl, rfl, rfl, Memory.read_write_same ..,
      fun b hb => Memory.read_write_other _ hb _⟩

/-- Settles O13: the next state where the response finds room; a READ keeps the memory, so the second one sends the same
byte. -/
theorem readSendsTheAddressedByte : Obligations.ReadSendsTheAddressedByte := by
  refine ⟨fun a s hroom => exec_read_of_room a hroom, fun a => fill_toNat _, fun a s t u _ ht hu => ?readTwice,
    _, rfl, by decide⟩
  case readTwice =>
    rw [exec_read_resp hu, State.takeResponse_resp, State.takeResponse_mem, exec_read_resp ht, exec_read_mem ht,
      List.append_assoc, List.singleton_append]

end Sys2Proof.Machine
end

/-! ## Which bits of a word each field is, and the words of one transaction (R46, R47, R57, R59) -/

section
namespace Sys2Proof

theorem and_eq_and_iff {w v m : Word} :
    w &&& m = v &&& m ↔ ∀ k, m.getLsbD k = true → w.getLsbD k = v.getLsbD k := by
  refine ⟨fun h k hk => getLsbD_eq_of_and_eq h hk, fun h => BitVec.eq_of_getLsbD_eq fun k _ => ?_⟩
  rw [BitVec.getLsbD_and, BitVec.getLsbD_and]
  cases hk : m.getLsbD k with
  | false => simp
  | true => rw [h k hk]

theorem and_or_eq_iff {w v m n : Word} :
    w &&& (m ||| n) = v &&& (m ||| n) ↔ w &&& m = v &&& m ∧ w &&& n = v &&& n := by
  simp only [and_eq_and_iff, BitVec.getLsbD_or, Bool.or_eq_true, or_imp, forall_and]

/-- The bits of a mask of `n` contiguous bits from position `lo`. -/
theorem getLsbD_contiguousMask {m : Word} {lo n : Nat} (hm : m.toNat = (2 ^ n - 1) <<< lo) {k : Nat} :
    m.getLsbD k = true ↔ lo ≤ k ∧ k - lo < n := by
  rw [BitVec.getLsbD, hm, Nat.testBit_shiftLeft, Nat.testBit_two_pow_sub_one, Bool.and_eq_true, decide_eq_true_iff,
    decide_eq_true_iff]

/-- R51: the address is bits 8 to 22 and nothing else. -/
theorem addressOf_eq_iff {w v : Word} : addressOf w = addressOf v ↔ w &&& 0x007FFF00#32 = v &&& 0x007FFF00#32 := by
  refine ⟨fun h => and_eq_and_iff.2 fun k hk => ?_, addressOf_eq_of_and_eq (by decide)⟩
  obtain ⟨hlo, hhi⟩ := (getLsbD_contiguousMask (lo := 8) (n := 15) (by decide)).1 hk
  have hbit : (addressOf w).getLsbD (k - 8) = (addressOf v).getLsbD (k - 8) := by rw [h]
  rwa [getLsbD_addressOf, getLsbD_addressOf, Nat.add_sub_cancel' hlo, decide_eq_true hhi, Bool.true_and,
    Bool.true_and] at hbit

/-- R52: the data are bits 23 to 30 and nothing else. -/
theorem dataOf_eq_iff {w v : Word} : dataOf w = dataOf v ↔ w &&& 0x7F800000#32 = v &&& 0x7F800000#32 := by
  refine ⟨fun h => and_eq_and_iff.2 fun k hk => ?_, dataOf_eq_of_and_eq (by decide)⟩
  obtain ⟨hlo, hhi⟩ := (getLsbD_contiguousMask (lo := 23) (n := 8) (by decide)).1 hk
  have hbit : (dataOf w).getLsbD (k - 23) = (dataOf v).getLsbD (k - 23) := by rw [h]
  rwa [getLsbD_dataOf, getLsbD_dataOf, Nat.add_sub_cancel' hlo, decide_eq_true hhi, Bool.true_and, Bool.true_and] at hbit

/-- R53: the direction is bit 2 and nothing else. -/
theorem isWriteOf_eq_iff {w v : Word} : isWriteOf w = isWriteOf v ↔ w &&& 4#32 = v &&& 4#32 := by
  refine ⟨fun h => ?_, isWriteOf_eq_of_and_eq (by decide)⟩
  rw [and_four_eq, and_four_eq, h]

/-- R59: two words decode to one triple exactly when they agree on the bits of `0x7FFFFF04`. -/
theorem decodeFields_eq_iff {w v : Word} :
    decodeFields w = decodeFields v ↔ w &&& 0x7FFFFF04#32 = v &&& 0x7FFFFF04#32 := by
  rw [show 0x7FFFFF04#32 = 0x007FFF00#32 ||| (0x7F800000#32 ||| 4#32) by decide, and_or_eq_iff, and_or_eq_iff,
    ← addressOf_eq_iff, ← dataOf_eq_iff, ← isWriteOf_eq_iff, decodeFields, decodeFields, Fields.mk.injEq]

/-- R47: the fields of a triple are those of its canonical word. -/
theorem decodeFields_encodeFields_toNat (a : Addr) (d : Byte) (wr : Bool) :
    decodeFields (encodeFields a.toNat d.toNat wr) = ⟨a, d, wr⟩ := by
  rw [decodeFields_encodeFields, BitVec.ofNat_toNat, BitVec.ofNat_toNat, BitVec.setWidth_eq, BitVec.setWidth_eq]

/-- The significant and the don't-care bits are all the bits. -/
theorem and_careMask_or_and_dontCareMask (w : Word) : (w &&& 0x7FFFFF04#32) ||| (w &&& 0x800000FB#32) = w := by
  rw [← BitVec.and_or_distrib_left, show 0x7FFFFF04#32 ||| 0x800000FB#32 = BitVec.allOnes 32 by decide,
    BitVec.and_allOnes]

theorem and_dontCareMask_and_careMask (o : Word) : o &&& 0x800000FB#32 &&& 0x7FFFFF04#32 = 0#32 := by
  rw [BitVec.and_assoc, show 0x800000FB#32 &&& 0x7FFFFF04#32 = 0#32 by decide, BitVec.and_zero]

/-- R59: what stands in the don't-care bits does not reach the triple. -/
theorem decodeFields_or_dontCare (w o : Word) : decodeFields (w ||| (o &&& 0x800000FB#32)) = decodeFields w := by
  rw [decodeFields_eq_iff, BitVec.and_or_distrib_right, and_dontCareMask_and_careMask, BitVec.or_zero]

theorem decodeFields_and_careMask (w : Word) : decodeFields (w &&& 0x7FFFFF04#32) = decodeFields w := by
  rw [decodeFields_eq_iff, BitVec.and_assoc, BitVec.and_self]

theorem encodeFields_and_careMask (a d : Nat) (wr : Bool) :
    encodeFields a d wr &&& 0x7FFFFF04#32 = encodeFields a d wr := by
  have hzero : encodeFields a d wr &&& 0x800000FB#32 = 0#32 := encodeFields_and_dontCare a d wr
  conv_rhs => rw [← and_careMask_or_and_dontCareMask (encodeFields a d wr), hzero, BitVec.or_zero]

/-- R57: encoding the triple of a word clears the don't-care bits and nothing else. -/
theorem encodeFields_decodeFields (w : Word) :
    encodeFields (addressOf w).toNat (dataOf w).toNat (isWriteOf w) = w &&& 0x7FFFFF04#32 := by
  rw [← encodeFields_and_careMask, ← decodeFields_eq_iff, decodeFields_encodeFields_toNat]
  rfl

theorem and_careMask_eq_self_iff {w : Word} : w &&& 0x7FFFFF04#32 = w ↔ w &&& 0x800000FB#32 = 0#32 := by
  constructor
  · intro h
    rw [← h, BitVec.and_assoc, show 0x7FFFFF04#32 &&& 0x800000FB#32 = 0#32 by decide, BitVec.and_zero]
  · intro h
    simpa [h] using and_careMask_or_and_dontCareMask w

/-- The eight don't-care bits of a word, closed up. -/
def gatherDontCare (w : Word) : BitVec 8 :=
  ((w &&& 0x3#32) ||| (w >>> 1 &&& 0x7C#32) ||| (w >>> 24 &&& 0x80#32)).setWidth 8

/-- Eight bits at the don't-care positions of a word. -/
def spreadDontCare (j : BitVec 8) : Word :=
  (j.setWidth 32 &&& 0x3#32) ||| ((j.setWidth 32 &&& 0x7C#32) <<< 1) ||| ((j.setWidth 32 &&& 0x80#32) <<< 24)

theorem spreadDontCare_gatherDontCare (w : Word) : spreadDontCare (gatherDontCare w) = w &&& 0x800000FB#32 := by
  refine BitVec.eq_of_getLsbD_eq fun k hk => ?_
  interval_cases k <;> simp [spreadDontCare, gatherDontCare]

theorem gatherDontCare_spreadDontCare (j : BitVec 8) : gatherDontCare (spreadDontCare j) = j := by
  refine BitVec.eq_of_getLsbD_eq fun k hk => ?_
  interval_cases k <;> simp [spreadDontCare, gatherDontCare]

/-- The words of a triple (R57): its canonical word with each choice of the eight don't-care bits. -/
def wordsOf (f : Fields) : List Word :=
  (List.finRange (2 ^ 8)).map fun j =>
    encodeFieldsX f.address.toNat f.data.toNat f.isWrite (spreadDontCare (BitVec.ofFin j))

theorem decodeFields_encodeFieldsX (a : Addr) (d : Byte) (wr : Bool) (o : Word) :
    decodeFields (encodeFieldsX a.toNat d.toNat wr o) = ⟨a, d, wr⟩ :=
  (decodeFields_or_dontCare _ o).trans (decodeFields_encodeFields_toNat a d wr)

theorem encodeFieldsX_and_dontCareMask (a d : Nat) (wr : Bool) (o : Word) :
    encodeFieldsX a d wr o &&& 0x800000FB#32 = o &&& 0x800000FB#32 := by
  have hzero : encodeFields a d wr &&& 0x800000FB#32 = 0#32 := encodeFields_and_dontCare a d wr
  rw [encodeFieldsX, BitVec.and_or_distrib_right, hzero, BitVec.zero_or, BitVec.and_assoc, BitVec.and_self]

/-- R57: a word is its triple's canonical word with its own don't-care bits. -/
theorem encodeFieldsX_decodeFields (w : Word) :
    encodeFieldsX (addressOf w).toNat (dataOf w).toNat (isWriteOf w) w = w := by
  rw [encodeFieldsX, encodeFields_decodeFields]
  exact and_careMask_or_and_dontCareMask w

theorem spreadDontCare_and_dontCareMask (j : BitVec 8) : spreadDontCare j &&& 0x800000FB#32 = spreadDontCare j := by
  rw [← spreadDontCare_gatherDontCare, gatherDontCare_spreadDontCare]

theorem wordsOf_nodup (f : Fields) : (wordsOf f).Nodup := by
  refine (List.nodup_finRange _).map fun i j h => ?_
  have hspread := congrArg (· &&& 0x800000FB#32) h
  simp only [encodeFieldsX_and_dontCareMask, spreadDontCare_and_dontCareMask] at hspread
  have hbits := congrArg gatherDontCare hspread
  rw [gatherDontCare_spreadDontCare, gatherDontCare_spreadDontCare] at hbits
  exact BitVec.ofFin.inj hbits

theorem mem_wordsOf {f : Fields} {w : Word} : w ∈ wordsOf f ↔ decodeFields w = f := by
  refine List.mem_map.trans ⟨?_, ?_⟩
  · rintro ⟨j, -, rfl⟩
    exact decodeFields_encodeFieldsX ..
  · rintro rfl
    refine ⟨(gatherDontCare w).toFin, List.mem_finRange _, ?_⟩
    conv_rhs => rw [← encodeFieldsX_decodeFields w]
    rw [BitVec.ofFin_toFin, spreadDontCare_gatherDontCare, encodeFieldsX, encodeFieldsX, BitVec.and_assoc,
      BitVec.and_self]
    rfl

/-- Settles O1: the canonical word holds the operands in the decoder's fields, and its direction bit selects the form. -/
theorem decodeEncodeIsIdentity : Obligations.DecodeEncodeIsIdentity := by
  intro i _
  cases i with
  | read a => simp [encode, decode_of_read]
  | write a d => simp [encode, decode_of_write]

/-- Settles O2: the triple of a word is its significant bits, so the words of a triple differ in the don't-care bits alone;
`wordsOf` lists them. -/
theorem decoderRoundTrip : Obligations.DecoderRoundTrip := by
  refine ⟨fun a d wr o => ⟨decodeFields_encodeFields_toNat a d wr, decodeFields_encodeFieldsX a d wr o⟩,
    fun w => ⟨encodeFields_decodeFields w, ?canonical⟩,
    fun f => ⟨wordsOf f, wordsOf_nodup f, by simp [wordsOf], fun w => mem_wordsOf⟩⟩
  case canonical =>
    rw [decodeFields_address, decodeFields_data, decodeFields_isWrite, encodeFields_decodeFields]
    exact and_careMask_eq_self_iff

/-- Settles O4: words that agree on the significant bits have one triple; the four example words are evaluated. -/
theorem decoderIgnoresDontCareBits : Obligations.DecoderIgnoresDontCareBits := by
  refine ⟨fun w o => ?_, fun w v h => decodeFields_eq_iff.2 h, by decide⟩
  rw [decodeFields_or_dontCare, decodeFields_and_careMask]

/-- Settles O6: the four words are evaluated. -/
theorem specWordsDecode : Obligations.SpecWordsDecode := by
  unfold Obligations.SpecWordsDecode
  decide

/-! ### Words and the two forms of transaction -/

theorem decode_eq_read_iff {w : Word} : (∃ a, decode w = .read a) ↔ isWriteOf w = false := by
  cases hw : isWriteOf w with
  | false => simp [decode_of_read hw]
  | true => simp [decode_of_write hw]

theorem decode_eq_write_iff {w : Word} : (∃ a d, decode w = .write a d) ↔ isWriteOf w = true := by
  cases hw : isWriteOf w with
  | false => simp [decode_of_read hw]
  | true => simp [decode_of_write hw]

theorem isWriteOf_xor_four (w : Word) : isWriteOf (w ^^^ 4#32) = !isWriteOf w := by
  simp [isWriteOf_eq_getLsbD]

/-- R46: a READ word is its direction bit and its address. -/
theorem decode_eq_iff_of_read {w v : Word} (hw : isWriteOf w = false) (hv : isWriteOf v = false) :
    decode w = decode v ↔ w &&& 0x007FFF04#32 = v &&& 0x007FFF04#32 := by
  rw [decode_of_read hw, decode_of_read hv, Instr.read.injEq,
    show 0x007FFF04#32 = 0x007FFF00#32 ||| 4#32 by decide, and_or_eq_iff, ← addressOf_eq_iff, ← isWriteOf_eq_iff, hw, hv]
  exact (and_iff_left rfl).symm

/-- R46: a WRITE word is its whole triple. -/
theorem decode_eq_iff_of_write {w v : Word} (hw : isWriteOf w = true) (hv : isWriteOf v = true) :
    decode w = decode v ↔ w &&& 0x7FFFFF04#32 = v &&& 0x7FFFFF04#32 := by
  rw [decode_of_write hw, decode_of_write hv, Instr.write.injEq, ← decodeFields_eq_iff, decodeFields, decodeFields,
    Fields.mk.injEq, hw, hv]
  simp

theorem isWriteOf_eq_true_iff_and_four {w : Word} : isWriteOf w = true ↔ w &&& 4#32 = 4#32 := by
  rw [and_four_eq]
  cases isWriteOf w <;> decide

/-- Settles O9: the masks are the complements of the insignificant bits; every transaction is that of its canonical word. -/
theorem significantBitsOfAWord : Obligations.SignificantBitsOfAWord := by
  refine ⟨fun w v hw hv => ?readWords, fun w v hw hv => ?writeWords, fun a => ⟨encode (.read a), ?hasRead⟩,
    fun a d => ⟨encode (.write a d), ?hasWrite⟩⟩
  case readWords => exact decode_eq_iff_of_read (isWriteOf_eq_false_iff.2 hw) (isWriteOf_eq_false_iff.2 hv)
  case writeWords => exact decode_eq_iff_of_write (isWriteOf_eq_true_iff_and_four.2 hw) (isWriteOf_eq_true_iff_and_four.2 hv)
  case hasRead => simp [encode, decode_of_read]
  case hasWrite => simp [encode, decode_of_write]

/-! ### The words of lines (R48) -/

/-- R47 as a number, where no field is over-wide. -/
theorem encodeFields_toNat {a d : Nat} (ha : a < 2 ^ 15) (hd : d < 2 ^ 8) (wr : Bool) :
    (encodeFields a d wr).toNat = a <<< 8 ||| d <<< 23 ||| if wr then 4 else 0 := by
  have haddr : a <<< 8 < 2 ^ 32 := by rw [Nat.shiftLeft_eq]; omega
  have hdata : d <<< 23 < 2 ^ 32 := by rw [Nat.shiftLeft_eq]; omega
  have hdir : (if wr then 1#32 <<< Config.dirBit else 0#32).toNat = if wr then 4 else 0 := by cases wr <;> rfl
  rw [encodeFields, BitVec.toNat_or, BitVec.toNat_or, hdir, BitVec.toNat_shiftLeft, BitVec.toNat_shiftLeft,
    BitVec.toNat_setWidth_of_le (by decide), BitVec.toNat_setWidth_of_le (by decide),
    BitVec.toNat_ofNat, BitVec.toNat_ofNat, Nat.mod_eq_of_lt ha, Nat.mod_eq_of_lt hd, Nat.mod_eq_of_lt haddr,
    Nat.mod_eq_of_lt hdata]

theorem Line.word?_rd (a : Nat) :
    (Line.rd a).word? = if a < 0x8000 then some (encodeFields a 0 false) else none := by
  simp [Line.word?, Line.wellFormed, Config.memSize]

theorem Line.word?_wr (a b : Nat) :
    (Line.wr a b).word? = if a < 0x8000 ∧ b < 0x100 then some (encodeFields a b true) else none := by
  simp [Line.word?, Line.wellFormed, Config.memSize, Config.dataW]

theorem Line.word?_raw (n : Nat) : (Line.raw n).word? = if n < 2 ^ 32 then some (BitVec.ofNat 32 n) else none := by
  simp [Line.word?, Line.wellFormed]

/-- Settles O12: one equation per form of line says when it stands for a word and for which. -/
theorem notationLinesStandForTheirWords : Obligations.NotationLinesStandForTheirWords := by
  refine ⟨fun a ha => ⟨_, ?rdWord, rfl, ?rdNumber, ?rdDecodes⟩,
    fun a b ha hb => ⟨_, ?wrWord, rfl, ?wrNumber, ?wrDecodes⟩, fun w => ?raw,
    fun a ha => ⟨?rdAddress, fun b => ?wrAddress⟩, fun a b hb => ?wrByte, fun n hn => ?rawTooWide⟩
  case rdWord => rw [Line.word?_rd, if_pos ha]
  case rdNumber => simpa using encodeFields_toNat (d := 0) ha (by decide) false
  case rdDecodes => simp [decode_of_read]
  case wrWord => rw [Line.word?_wr, if_pos ⟨ha, hb⟩]
  case wrNumber => exact encodeFields_toNat ha hb true
  case wrDecodes => simp [decode_of_write]
  case raw => rw [Line.word?_raw, if_pos w.isLt, BitVec.ofNat_toNat, BitVec.setWidth_eq]
  case rdAddress => rw [Line.word?_rd, if_neg (by omega)]
  case wrAddress => rw [Line.word?_wr, if_neg (by omega)]
  case wrByte => rw [Line.word?_wr, if_neg (by omega)]
  case rawTooWide => rw [Line.word?_raw, if_neg (by omega)]

end Sys2Proof
end

/-! ## What `exec`, a send and one step can do, said once -/

section
namespace Sys2Proof.Machine

theorem exec_goes_on (i : Instr) (s : State) : ∃ t, exec i s = .next t := by
  cases i with
  | read a => exact ⟨_, exec_read a s⟩
  | write a d => exact ⟨_, exec_write a d s⟩

/-- Both transactions return to `Idle` and leave the word channel and the turns alone. -/
theorem exec_frame {i : Instr} {s t : State} (h : exec i s = .next t) :
    t.ctrl = .idle ∧ t.wch = s.wch ∧ t.turns = s.turns := by
  cases i with
  | read a =>
    rw [exec_read] at h
    cases h
    simp
  | write a d =>
    rw [exec_write] at h
    cases h
    exact ⟨rfl, rfl, rfl⟩

/-- R80: an overrun is recorded by a send without room and by nothing else, and is never cleared by a send. -/
theorem State.rsend_overrun_iff {s : State} {b : Byte} :
    (s.rsend b).overrun = true ↔ s.overrun = true ∨ Config.rchDepth ≤ s.rch.length := by
  rcases lt_or_ge s.rch.length Config.rchDepth with hroom | hfull
  · simp [State.rsend_of_room b hroom, hroom]
  · simp [State.rsend_of_full b hfull, hfull]

/-- R5: no send makes the response channel hold more than its depth. -/
theorem State.rsend_rch_length_le (s : State) (b : Byte) : (s.rsend b).rch.length ≤ Config.rchDepth := by
  rcases lt_or_ge s.rch.length Config.rchDepth with hroom | hfull
  · simpa [State.rsend_of_room b hroom] using hroom
  · simp [State.rsend_of_full b hfull]

/-- R68: where no overrun is recorded afterwards, the byte was appended. -/
theorem State.rsend_rch_of_no_overrun {s : State} {b : Byte} (h : (s.rsend b).overrun = false) :
    s.overrun = false ∧ (s.rsend b).rch = s.rch ++ [b] := by
  rw [← Bool.not_eq_true, State.rsend_overrun_iff, not_or, Bool.not_eq_true, not_le] at h
  exact ⟨h.1, by rw [State.rsend_of_room b h.2]⟩

theorem State.deliver_wch (w : Word) (s : State) :
    (s.deliver w).wch = s.wch ++ if wchHasRoom s.wch.length then [w] else [] := by
  cases hroom : wchHasRoom s.wch.length with
  | true => simp [State.deliver_of_room w hroom]
  | false => simp [State.deliver_of_full w hroom]

/-- One move of one agent (R6) and the state it leaves. -/
inductive Move (s : State) : State → Prop
  /-- the startup fill (R92) -/
  | fill (hm : s.coreMoves) (hc : s.ctrl = .init) : Move s { s with turns := s.turns.tail }.initialise
  /-- the return from a busy control state (R12) -/
  | settle (hm : s.coreMoves) (hc : s.ctrl = .read ∨ s.ctrl = .write) :
      Move s ({ s with turns := s.turns.tail }.setCtrl .idle)
  /-- no word waits (R62) -/
  | wait (hm : s.coreMoves) (hc : s.ctrl = .idle) (hw : s.wch = []) : Move s { s with turns := s.turns.tail }
  /-- the service of a READ word (R64) -/
  | read {w : Word} {ws : List Word} (hm : s.coreMoves) (hc : s.ctrl = .idle) (hw : s.wch = w :: ws)
      (hread : isWriteOf w = false) :
      Move s ((({ s with wch := ws, turns := s.turns.tail }.setCtrl .read).rsend (s.mem.read (addressOf w))).setCtrl .idle)
  /-- the service of a WRITE word (R65) -/
  | write {w : Word} {ws : List Word} (hm : s.coreMoves) (hc : s.ctrl = .idle) (hw : s.wch = w :: ws)
      (hwrite : isWriteOf w = true) :
      Move s { s with
        wch := ws, turns := s.turns.tail, ctrl := .idle, mem := s.mem.write (addressOf w) (dataOf w) }
  /-- a delivery, enabled or not (R87) -/
  | deliver {w : Word} {ts : List Turn} (hturn : s.turns = .deliver w :: ts) : Move s ({ s with turns := ts }.deliver w)
  /-- a taking, enabled or not (R87) -/
  | take {ts : List Turn} (hturn : s.turns = .take :: ts) : Move s { s with turns := ts }.takeResponse
  /-- a reset (R91) -/
  | reset {ts : List Turn} (hturn : s.turns = .reset :: ts) : Move s { s with turns := ts }.resetDevice

theorem Move.step {s t : State} (h : Move s t) : step s = .next t := by
  cases h with
  | fill hm hc => exact step_of_init hm hc
  | settle hm hc => exact (step_of_coreMoves hm).trans (coreStep_of_busy hc)
  | wait hm hc hw => exact (step_of_coreMoves hm).trans (coreStep_of_empty hc hw)
  | read hm hc hw hread => rw [step_of_word hm hc hw, decode_of_read hread, exec_read]
  | write hm hc hw hwrite => exact step_of_write_word hm hc hw hwrite
  | deliver hturn => exact step_of_deliver hturn
  | take hturn => exact step_of_take hturn
  | reset hturn => exact step_of_reset hturn

theorem exists_move (s : State) : ∃ t, Move s t := by
  rcases turn_cases s with hm | ⟨w, ts, hturn⟩ | ⟨ts, hturn⟩ | ⟨ts, hturn⟩
  · cases hc : s.ctrl with
    | init => exact ⟨_, .fill hm hc⟩
    | read => exact ⟨_, .settle hm (.inl hc)⟩
    | write => exact ⟨_, .settle hm (.inr hc)⟩
    | idle =>
      rcases hw : s.wch with _ | ⟨w, ws⟩
      · exact ⟨_, .wait hm hc hw⟩
      · cases hdir : isWriteOf w with
        | false => exact ⟨_, .read hm hc hw hdir⟩
        | true => exact ⟨_, .write hm hc hw hdir⟩
  · exact ⟨_, .deliver hturn⟩
  · exact ⟨_, .take hturn⟩
  · exact ⟨_, .reset hturn⟩

/-- A step is one of the moves, and every move is a step. -/
theorem step_eq_next_iff {s t : State} : step s = .next t ↔ Move s t := by
  refine ⟨fun h => ?_, Move.step⟩
  obtain ⟨u, hu⟩ := exists_move s
  obtain rfl : u = t := Host.Outcome.next.inj (hu.step.symm.trans h)
  exact hu

/-- Every step uses up one turn. -/
theorem Move.turns {s t : State} (h : Move s t) : t.turns = s.turns.tail := by
  cases h with
  | deliver hturn => simp [hturn]
  | take hturn => simp [hturn]
  | reset hturn => simp [hturn]
  | _ => simp

theorem stepN_succ {s t : State} (h : step s = .next t) (k : Nat) : stepN (k + 1) s = stepN k t := by
  simp [stepN, h]

theorem acceptedN_succ {s t : State} (h : step s = .next t) (k : Nat) :
    acceptedN (k + 1) s = accepted s ++ acceptedN k t := by
  simp [acceptedN, h]

theorem accepted_of_coreMoves {s : State} (h : s.coreMoves) : accepted s = [] := by
  rcases h with h | ⟨ts, h⟩ <;> simp [accepted, h]

theorem accepted_of_take {s : State} {ts : List Turn} (h : s.turns = .take :: ts) : accepted s = [] := by
  simp [accepted, h]

/-- R87: what is accepted in a delivery enters at the tail. -/
theorem deliver_wch_eq_append_accepted {s : State} {w : Word} {ts : List Turn} (h : s.turns = .deliver w :: ts) :
    ({ s with turns := ts }.deliver w).wch = s.wch ++ accepted s := by
  simp [State.deliver_wch, accepted, h]

end Sys2Proof.Machine
end

/-! ## The invariant (O32, O33) -/

section
namespace Sys2Proof.Machine

theorem State.Inv.setTurns {s : State} (h : s.Inv) (ts : List Turn) : State.Inv { s with turns := ts } :=
  ⟨h.mem_wf, h.ctrl_rest, h.init_fresh, h.wch_fits, h.rch_fits, h.rch_trace⟩

theorem State.Inv.dropHead {s : State} {w : Word} {ws : List Word} (h : s.Inv) (hw : s.wch = w :: ws) :
    State.Inv { s with wch := ws } := by
  refine ⟨h.mem_wf, h.ctrl_rest, h.init_fresh, h.wch_fits.imp_right fun hfits => ?_, h.rch_fits, h.rch_trace⟩
  rw [hw, List.length_cons] at hfits
  exact (Nat.le_succ _).trans hfits

/-- In `Idle` the memory may be any canonical one. -/
theorem State.Inv.toIdle {s : State} (h : s.Inv) {m : Memory} (hm : m.wf) :
    State.Inv { s with mem := m, ctrl := .idle } :=
  ⟨hm, .inr rfl, fun hc => Ctrl.noConfusion hc, h.wch_fits, h.rch_fits, h.rch_trace⟩

theorem State.Inv.afterRead {s : State} (h : s.Inv) (b : Byte) :
    State.Inv (((s.setCtrl .read).rsend b).setCtrl .idle) where
  mem_wf := by simpa using h.mem_wf
  ctrl_rest := .inr rfl
  init_fresh hc := Ctrl.noConfusion hc
  wch_fits := by simpa using h.wch_fits
  rch_fits := State.rsend_rch_length_le _ b
  rch_trace ho := by
    obtain ⟨hbefore, hrch⟩ := State.rsend_rch_of_no_overrun ho
    obtain ⟨taken, htaken⟩ := h.rch_trace hbefore
    exact ⟨taken, by simp [hrch, ← htaken]⟩

theorem State.Inv.deliver {s : State} (h : s.Inv) (w : Word) : (s.deliver w).Inv := by
  cases hroom : wchHasRoom s.wch.length with
  | false => rwa [State.deliver_of_full w hroom]
  | true =>
    rw [State.deliver_of_room w hroom]
    refine ⟨h.mem_wf, h.ctrl_rest, h.init_fresh, ((wchHasRoom_iff _).1 hroom).imp_right fun hlt => ?_,
      h.rch_fits, h.rch_trace⟩
    simpa using hlt

theorem State.Inv.takeResponse {s : State} (h : s.Inv) : s.takeResponse.Inv where
  mem_wf := h.mem_wf
  ctrl_rest := h.ctrl_rest
  init_fresh hc := by
    obtain ⟨hmem, hrch, hresp, hover⟩ := h.init_fresh hc
    exact ⟨hmem, by simp [hrch], hresp, hover⟩
  wch_fits := h.wch_fits
  rch_fits := by
    have := h.rch_fits
    simp only [State.takeResponse_rch, List.length_tail]
    omega
  rch_trace ho := (List.tail_suffix _).trans (h.rch_trace ho)

theorem State.inv_resetDevice (s : State) : s.resetDevice.Inv :=
  ⟨Memory.filled_wf, .inl rfl, fun _ => ⟨rfl, rfl, rfl, rfl⟩, .inr (Nat.zero_le _), Nat.zero_le _,
    fun _ => List.suffix_refl _⟩

theorem Move.inv {s t : State} (h : Move s t) (hinv : s.Inv) : t.Inv := by
  cases h with
  | fill => exact (hinv.setTurns _).toIdle Memory.filled_wf
  | settle => exact (hinv.setTurns _).toIdle hinv.mem_wf
  | wait => exact hinv.setTurns _
  | read _ _ hw => exact ((hinv.dropHead hw).setTurns _).afterRead _
  | write _ _ hw => exact ((hinv.dropHead hw).setTurns _).toIdle (Memory.write_wf hinv.mem_wf _ _)
  | deliver => exact (hinv.setTurns _).deliver _
  | take => exact (hinv.setTurns _).takeResponse
  | reset => exact State.inv_resetDevice _

/-- Settles O32: each move is made of operations that keep the invariant. -/
theorem stepKeepsTheInvariant : Obligations.StepKeepsTheInvariant :=
  fun _ _ hinv h => (step_eq_next_iff.1 h).inv hinv

/-- Settles O33: the state after reset is what a reset leaves. -/
theorem resetStateIsGood : Obligations.ResetStateIsGood :=
  State.inv_resetDevice State.reset

end Sys2Proof.Machine
end

/-! ## The whole behaviour: `Run` in delivery order, whatever the interleaving (R33, R70, R71, R102, R103) -/

section
namespace Sys2Proof.Machine

/-- The memory and the trace once the words that wait in `s`, and after them `ws`, have been serviced. -/
def State.served (s : State) (ws : List Word) : Memory × List Byte :=
  ((run (startMem s) (s.wch ++ ws)).1, s.resp ++ (run (startMem s) (s.wch ++ ws)).2)

theorem startMem_of_idle {s : State} (h : s.ctrl = .idle) : startMem s = s.mem := by
  simp [startMem, h]

/-- A move other than a reset brings the accepted word into the queue or the head out of it, with its effect. -/
theorem Move.served {s t : State} (h : Move s t) (hreset : ∀ ts, s.turns ≠ .reset :: ts) (ws : List Word) :
    s.served (accepted s ++ ws) = t.served ws := by
  cases h with
  | fill hm hc => simp [State.served, accepted_of_coreMoves hm, startMem, hc]
  | settle hm hc => rcases hc with hc | hc <;> simp [State.served, accepted_of_coreMoves hm, startMem, hc]
  | wait hm =>
    rw [accepted_of_coreMoves hm]
    rfl
  | read hm hc hw hread => simp [State.served, accepted_of_coreMoves hm, startMem, hc, hw, run_cons_of_read hread]
  | write hm hc hw hwrite => simp [State.served, accepted_of_coreMoves hm, startMem, hc, hw, run_cons_of_write hwrite]
  | deliver hturn => simp [State.served, startMem, deliver_wch_eq_append_accepted hturn]
  | take hturn =>
    rw [accepted_of_take hturn]
    rfl
  | reset hturn => exact absurd hturn (hreset _)

theorem State.served_nil_of_quiescent {s : State} (h : s.quiescent) : s.served [] = (s.mem, s.resp) := by
  obtain ⟨hc, hw⟩ := h
  simp [State.served, startMem_of_idle hc, hw]

/-- R103: the memory and the trace at quiescence, by induction on the number of steps. -/
theorem served_of_stepN {k : Nat} {s t : State} (hreset : Turn.reset ∉ s.turns.take k) (h : stepN k s = .next t)
    (hq : t.quiescent) : (t.mem, t.resp) = s.served (acceptedN k s) := by
  induction k generalizing s with
  | zero =>
    obtain rfl : s = t := Host.Outcome.next.inj h
    exact (State.served_nil_of_quiescent hq).symm
  | succ k ih =>
    obtain ⟨u, hu⟩ := exists_move s
    have hnow : ∀ ts, s.turns ≠ .reset :: ts := fun ts hts => hreset (by simp [hts])
    have hlater : Turn.reset ∉ u.turns.take k := fun hmem =>
      hreset (List.mem_of_mem_drop (i := 1) (by rwa [List.drop_take, List.drop_one, ← hu.turns]))
    rw [stepN_succ hu.step] at h
    rw [acceptedN_succ hu.step, hu.served hnow, ih hlater h]

/-- Settles O30: every move keeps `State.served`, which at quiescence is the memory and the trace. -/
theorem effectsOccurInDeliveryOrder : Obligations.EffectsOccurInDeliveryOrder :=
  fun _ _ _ hreset h hq _ => Prod.mk.inj (served_of_stepN hreset h hq)

/-- R102: with the sampler silent, as many steps as words wait drain the word channel. -/
theorem stepN_drains {ws : List Word} {s : State} (hc : s.ctrl = .idle) (hturns : s.turns = []) (hw : s.wch = ws) :
    ∃ t, stepN ws.length s = .next t ∧ t.quiescent := by
  induction ws generalizing s with
  | nil => exact ⟨s, rfl, hc, hw⟩
  | cons w ws ih =>
    obtain ⟨u, hu⟩ := exec_goes_on (decode w) { s with wch := ws, turns := s.turns.tail }
    obtain ⟨huc, huw, huturns⟩ := exec_frame hu
    rw [List.length_cons, stepN_succ ((step_of_word (.inl hturns) hc hw).trans hu)]
    exact ih huc (by simp [huturns, hturns]) huw

/-- R71, R80: under P-WAIT the drained state, whole. -/
theorem stepN_of_pWait {ws : List Word} {s : State} (hc : s.ctrl = .idle) (hturns : s.turns = []) (hw : s.wch = ws)
    (hwait : s.rch.length + (run s.mem ws).2.length ≤ Config.rchDepth) :
    stepN ws.length s = .next { s with
      wch := [], mem := (run s.mem ws).1, resp := s.resp ++ (run s.mem ws).2, rch := s.rch ++ (run s.mem ws).2 } := by
  induction ws generalizing s with
  | nil =>
    rw [run_nil, List.append_nil, List.append_nil]
    exact congrArg (fun us => Host.Outcome.next { s with wch := us }) hw
  | cons w ws ih =>
    cases hdir : isWriteOf w with
    | false =>
      rw [run_cons_of_read hdir, List.length_cons] at hwait
      rw [List.length_cons, stepN_succ (step_of_read_word (.inl hturns) hc hw hdir (by omega)),
        ih rfl (by simp [hturns]) rfl (by simpa [Nat.add_assoc, Nat.add_comm 1] using hwait), run_cons_of_read hdir]
      simp [hc, hturns]
    | true =>
      rw [run_cons_of_write hdir] at hwait
      rw [List.length_cons, stepN_succ (step_of_write_word (.inl hturns) hc hw hdir),
        ih rfl (by simp [hturns]) rfl hwait, run_cons_of_write hdir]
      simp [hc, hturns]

/-- Settles O31: the queue drains by induction over it; under P-WAIT the same induction gives the drained state. -/
theorem waitingWordsAreAllServed : Obligations.WaitingWordsAreAllServed := by
  intro s hc hturns
  obtain ⟨t, ht, hq⟩ := stepN_drains hc hturns rfl
  refine ⟨t, ht, hq, fun hwait => ?_⟩
  cases ht.symm.trans (stepN_of_pWait hc hturns rfl hwait)
  exact ⟨rfl, rfl, rfl, rfl⟩

end Sys2Proof.Machine
end

/-! ## Reset forgets the past (R91, R93) -/

section
namespace Sys2Proof.Machine

/-- `s` with another response channel and another count of free values: what two devices may still differ in after an
overrun (log entries 3 and 4). -/
def State.withChannel (s : State) (r : List Byte) (f : Nat) : State := { s with rch := r, freeIdx := f }

theorem State.rsend_eq (s : State) (b : Byte) :
    s.rsend b = State.withChannel { s with resp := s.resp ++ [b], overrun := (s.rsend b).overrun }
      (s.rsend b).rch (s.rsend b).freeIdx := by
  rcases lt_or_ge s.rch.length Config.rchDepth with hroom | hfull
  · rw [State.rsend_of_room b hroom]
    rfl
  · rw [State.rsend_of_full b hfull]
    rfl

theorem State.rsend_withChannel_overrun {s : State} {r : List Byte} (hr : s.overrun = false → r = s.rch) (f : Nat)
    (b : Byte) : ((s.withChannel r f).rsend b).overrun = (s.rsend b).overrun := by
  rw [Bool.eq_iff_iff, State.rsend_overrun_iff, State.rsend_overrun_iff]
  cases ho : s.overrun with
  | true => exact iff_of_true (.inl ho) (.inl rfl)
  | false =>
    rw [← hr ho, ← ho]
    rfl

/-- A send keeps the difference inside the response channel and the count, and makes none while no overrun is recorded. -/
theorem State.rsend_withChannel {s : State} {r : List Byte} (hr : s.overrun = false → r = s.rch) (f : Nat) (b : Byte) :
    ∃ r' f', (s.withChannel r f).rsend b = (s.rsend b).withChannel r' f' ∧
      ((s.rsend b).overrun = false → r' = (s.rsend b).rch) := by
  have hover := State.rsend_withChannel_overrun hr f b
  refine ⟨((s.withChannel r f).rsend b).rch, ((s.withChannel r f).rsend b).freeIdx, ?_, fun h => ?_⟩
  · rw [State.rsend_eq (s.withChannel r f), hover, State.rsend_eq s]
    rfl
  · obtain ⟨-, hrch'⟩ := State.rsend_rch_of_no_overrun (hover.trans h)
    obtain ⟨hbefore, hrch⟩ := State.rsend_rch_of_no_overrun h
    rw [hrch', hrch, ← hr hbefore]
    rfl

theorem State.deliver_withChannel (s : State) (w : Word) (r : List Byte) (f : Nat) :
    (s.withChannel r f).deliver w = (s.deliver w).withChannel r f := by
  cases hroom : wchHasRoom s.wch.length with
  | true =>
    rw [State.deliver_of_room w hroom, State.deliver_of_room (s := s.withChannel r f) w hroom]
    rfl
  | false => rw [State.deliver_of_full w hroom, State.deliver_of_full (s := s.withChannel r f) w hroom]

/-- Every move keeps the difference inside the response channel and the count, and makes none while no overrun is
recorded. -/
theorem Move.withChannel {s t : State} (h : Move s t) {r : List Byte} (hr : s.overrun = false → r = s.rch) (f : Nat) :
    ∃ r' f', Move (s.withChannel r f) (t.withChannel r' f') ∧ (t.overrun = false → r' = t.rch) := by
  cases h with
  | fill hm hc => exact ⟨r, f, .fill hm hc, hr⟩
  | settle hm hc => exact ⟨r, f, .settle hm hc, hr⟩
  | wait hm hc hw => exact ⟨r, f, .wait hm hc hw, hr⟩
  | @read w ws hm hc hw hread =>
    obtain ⟨r', f', hsend, hr'⟩ := State.rsend_withChannel
      (s := { s with wch := ws, turns := s.turns.tail }.setCtrl .read) hr f (s.mem.read (addressOf w))
    have hmove := Move.read (s := s.withChannel r f) hm hc hw hread
    exact ⟨r', f', Eq.subst (motive := Move _) (congrArg (State.setCtrl .idle) hsend) hmove, hr'⟩
  | write hm hc hw hwrite => exact ⟨r, f, .write hm hc hw hwrite, hr⟩
  | @deliver w ts hturn =>
    refine ⟨r, f, State.deliver_withChannel { s with turns := ts } w r f ▸ .deliver hturn, fun ho => ?_⟩
    rw [State.deliver_overrun] at ho
    rw [State.deliver_rch, hr ho]
  | take hturn => exact ⟨r.tail, f, .take hturn, fun ho => congrArg List.tail (hr ho)⟩
  | reset hturn => exact ⟨[], f, .reset hturn, fun _ => rfl⟩

theorem stepN_withChannel {k : Nat} {s t : State} (h : stepN k s = .next t) {r : List Byte}
    (hr : s.overrun = false → r = s.rch) (f : Nat) :
    ∃ r' f', stepN k (s.withChannel r f) = .next (t.withChannel r' f') ∧ (t.overrun = false → r' = t.rch) := by
  induction k generalizing s r f with
  | zero =>
    obtain rfl : s = t := Host.Outcome.next.inj h
    exact ⟨r, f, rfl, hr⟩
  | succ k ih =>
    obtain ⟨u, hu⟩ := exists_move s
    rw [stepN_succ hu.step] at h
    obtain ⟨r', f', hu', hr'⟩ := hu.withChannel hr f
    rw [stepN_succ hu'.step]
    exact ih h hr' f'

/-- Settles O39: the two reset states differ in the count of free values alone, and every further step keeps the difference
inside the response channel and that count. -/
theorem resetIsHistoryFree : Obligations.ResetIsHistoryFree := by
  intro k s s' t t' ts hs hs' ht ht'
  rw [stepN_succ (step_of_reset hs)] at ht
  rw [stepN_succ (step_of_reset hs')] at ht'
  obtain ⟨r, f, hagree, hr⟩ := stepN_withChannel ht (r := []) (fun _ => rfl) s'.freeIdx
  obtain rfl : t.withChannel r f = t' := Host.Outcome.next.inj (hagree.symm.trans ht')
  exact ⟨rfl, rfl, rfl, rfl, rfl, fun ho => (hr ho).symm⟩

end Sys2Proof.Machine
end

/-! ## The two transactions: legality and frames (R42, R64, R65, R69, R80) -/

section
namespace Sys2Proof.Machine

/-- R80 (log entry 3): what a READ that finds no room leaves. -/
theorem exec_read_of_full {s : State} (a : Addr) (h : Config.rchDepth ≤ s.rch.length) :
    ∃ t, exec (.read a) s = .next t ∧ t.overrun = true ∧ t.rch.length ≤ Config.rchDepth :=
  ⟨_, exec_read a s, State.rsend_overrun_iff.2 (.inr h), State.rsend_rch_length_le _ _⟩

/-- Settles O8: `exec` answers for both forms of transaction, and bit 2 alone tells which form a word is. -/
theorem everyWordIsLegal : Obligations.EveryWordIsLegal := by
  refine ⟨fun w s => ?serviced, fun w => ?paired⟩
  case serviced =>
    obtain ⟨t, ht⟩ := exec_goes_on (decode w) s
    refine ⟨t, ht, ?_⟩
    cases hw : decode w with
    | read a =>
      rw [hw] at ht
      exact .inl ⟨a, rfl, exec_read_mem ht, fun _ => exec_read_resp ht⟩
    | write a d =>
      rw [hw] at ht
      exact .inr ⟨a, d, rfl, exec_write_mem ht⟩
  case paired => rw [decode_eq_read_iff, decode_eq_write_iff, isWriteOf_xor_four, Bool.not_eq_true']

/-- Settles O15: a READ only sends, and with room the send is an append. -/
theorem readFrame : Obligations.ReadFrame := by
  intro a s t h
  obtain ⟨-, hwch, hturns⟩ := exec_frame h
  have hmem := exec_read_mem h
  refine ⟨fun b => by rw [hmem], hmem, hwch, hturns, fun hroom => ?_⟩
  rw [exec_read_of_room a hroom] at h
  cases h
  exact ⟨rfl, rfl⟩

/-- Settles O16: a WRITE changes one cell and the control state. -/
theorem writeFrame : Obligations.WriteFrame := by
  intro a d s t h
  rw [exec_write] at h
  cases h
  exact ⟨fun b hb => Memory.read_write_other _ hb _, rfl, rfl, rfl, rfl, rfl, rfl⟩

/-- Settles O17: the frame of a READ does not depend on room; the send records the overrun. -/
theorem readWithoutRoomRecordsOverrun : Obligations.ReadWithoutRoomRecordsOverrun := by
  intro a s hfull
  obtain ⟨t, ht, hover, hfits⟩ := exec_read_of_full a hfull
  obtain ⟨hctrl, hwch, hturns⟩ := exec_frame ht
  exact ⟨t, ht, hover, exec_read_mem ht, hwch, hturns, hctrl, exec_read_resp ht, hfits⟩

end Sys2Proof.Machine
end

/-! ## What a step changes, and which move does it (R9 to R11, R61, R62, R78, R80, R87) -/

section
namespace Sys2Proof

/-- R54: the operands' types are the bounds. -/
theorem Instr.wellFormed_eq_true (i : Instr) : i.wellFormed = true := by
  cases i with
  | read a => exact decide_eq_true a.isLt
  | write a d => exact Bool.and_eq_true_iff.2 ⟨decide_eq_true a.isLt, decide_eq_true d.isLt⟩

namespace Machine

theorem Move.overrun_mono {s t : State} (h : Move s t) (hreset : ∀ ts, s.turns ≠ .reset :: ts)
    (ho : s.overrun = true) : t.overrun = true := by
  cases h with
  | read => exact State.rsend_overrun_iff.2 (.inl ho)
  | reset hturn => exact absurd hturn (hreset _)
  | _ => simpa using ho

/-- Settles O18: of all moves only a send records an overrun, and only a reset clears one. -/
theorem overrunIsStickyAndExact : Obligations.OverrunIsStickyAndExact := by
  refine ⟨fun s t ho hreset h => (step_eq_next_iff.1 h).overrun_mono hreset ho, fun s t hbefore h hafter => ?_⟩
  cases step_eq_next_iff.1 h with
  | @read w ws hm hc hw hread =>
    rcases State.rsend_overrun_iff.1 hafter with ho | hfull
    · exact absurd (hbefore.symm.trans ho) Bool.false_ne_true
    · exact ⟨hm, hc, hfull, w, ws, _, hw, decode_of_read hread⟩
  | _ => simp [hbefore] at hafter

/-- Settles O22: this is `step_of_word`; every transaction is well-formed. -/
theorem stepRunsTheDecodedWord : Obligations.StepRunsTheDecodedWord :=
  fun _ w _ hm hc hw => ⟨(decode w).wellFormed_eq_true, step_of_word hm hc hw⟩

theorem step_of_empty {s : State} (hm : s.coreMoves) (hc : s.ctrl = .idle) (hw : s.wch = []) :
    step s = .next { s with turns := s.turns.tail } :=
  (Move.wait hm hc hw).step

theorem stepN_of_empty {s : State} (hturns : s.turns = []) (hc : s.ctrl = .idle) (hw : s.wch = []) (k : Nat) :
    stepN k s = .next s := by
  have hstep : step s = .next s := by
    rw [step_of_coreMoves (.inl hturns), hturns, List.tail_nil, ← hturns]
    exact coreStep_of_empty hc hw
  induction k with
  | zero => rfl
  | succ k ih => rw [stepN_succ hstep, ih]

/-- Settles O23: waiting is the step of an idle loop with no word, repeated by induction; a service leaves the tail. -/
theorem emptyWordChannelMeansWaiting : Obligations.EmptyWordChannelMeansWaiting := by
  refine ⟨fun s hc hw => ⟨fun hm => step_of_empty hm hc hw, fun hturns => stepN_of_empty hturns hc hw⟩,
    fun s w ws hm hc hw => ?received⟩
  case received =>
    obtain ⟨t, ht⟩ := exec_goes_on (decode w) { s with wch := ws, turns := s.turns.tail }
    obtain ⟨-, hwch, -⟩ := exec_frame ht
    exact ⟨t, (step_of_word hm hc hw).trans ht, ht, hwch⟩

/-- Settles O24: in every state some move is made. -/
theorem everyStepGoesOn : Obligations.EveryStepGoesOn :=
  fun s => (exists_move s).imp fun _ h => h.step

/-- Settles O25: the two moves of the sampler, each split on whether it is enabled. -/
theorem samplerMovesTouchOnlyTheirChannel : Obligations.SamplerMovesTouchOnlyTheirChannel := by
  refine ⟨fun s w ts hturn => ?delivery, fun s b bs ts hturn hrch => ?taking, fun s ts hturn hrch => ?emptyTaking⟩
  case delivery =>
    rw [step_of_deliver hturn, State.deliver]
    simp only [wchHasRoom_iff]
  case taking => rw [step_of_take hturn, State.takeResponse, hrch, List.tail_cons]
  case emptyTaking => rw [step_of_take hturn, State.takeResponse, hrch, List.tail_nil, ← hrch]

/-- R10: a move other than a reset puts the accepted word at the tail; a service, and nothing else, takes the head. -/
theorem Move.wch_cases {s t : State} (h : Move s t) (hreset : ∀ ts, s.turns ≠ .reset :: ts) :
    s.wch ++ accepted s = t.wch ∨
      s.coreMoves ∧ s.ctrl = .idle ∧ ∃ w, s.wch ++ accepted s = w :: t.wch := by
  cases h with
  | fill hm => exact .inl (by simp [accepted_of_coreMoves hm])
  | settle hm => exact .inl (by simp [accepted_of_coreMoves hm])
  | wait hm => exact .inl (by simp [accepted_of_coreMoves hm])
  | @read w _ hm hc hw => exact .inr ⟨hm, hc, w, by simp [accepted_of_coreMoves hm, hw]⟩
  | @write w _ hm hc hw => exact .inr ⟨hm, hc, w, by simp [accepted_of_coreMoves hm, hw]⟩
  | deliver hturn => exact .inl (deliver_wch_eq_append_accepted hturn).symm
  | take hturn => exact .inl (by simp [accepted_of_take hturn])
  | reset hturn => exact absurd hturn (hreset _)

/-- Settles O26: nothing left, or the head did in a service. -/
theorem wordChannelIsFirstInFirstOut : Obligations.WordChannelIsFirstInFirstOut := by
  intro s t hreset h
  rcases (step_eq_next_iff.1 h).wch_cases hreset with hkept | ⟨hm, hc, w, hgone⟩
  · exact ⟨[], hkept, Nat.zero_le _, fun hne => absurd rfl hne⟩
  · exact ⟨[w], hgone, le_rfl, fun _ => ⟨hm, hc⟩⟩

/-- Settles O27: past `Init` and short of a reset, only the service of a WRITE word stores, and it keeps the other cells. -/
theorem onlyAServicedWriteChangesMemory : Obligations.OnlyAServicedWriteChangesMemory := by
  intro s t a hinit hreset h hchanged
  cases step_eq_next_iff.1 h with
  | fill hm hc => exact absurd hc hinit
  | @write w ws hm hc hw hwrite =>
    obtain rfl : a = addressOf w := by
      by_contra ha
      exact hchanged (Memory.read_write_other _ ha _)
    exact ⟨hm, hc, w, ws, _, hw, decode_of_write hwrite, Memory.read_write_same ..⟩
  | reset hturn => exact absurd hturn (hreset _)
  | _ => exact absurd (by simp) hchanged

/-- Settles O28: short of a reset, only the service of a READ word sends. -/
theorem onlyAServicedReadResponds : Obligations.OnlyAServicedReadResponds := by
  intro s t hreset h hchanged
  cases step_eq_next_iff.1 h with
  | @read w ws hm hc hw hread => exact ⟨hm, hc, w, ws, _, hw, decode_of_read hread, by simp⟩
  | reset hturn => exact absurd hturn (hreset _)
  | _ => exact absurd (by simp) hchanged

end Machine

end Sys2Proof
end

/-! ## Laws of `Run` (R71) -/

section
namespace Sys2Proof.Machine

/-- `Run` sees a word only as its transaction. -/
theorem run_cons_congr {w v : Word} (h : decode w = decode v) (m : Memory) (ws : List Word) :
    run m (w :: ws) = run m (v :: ws) := by
  have hdir : isWriteOf w = isWriteOf v := by
    rw [Bool.eq_iff_iff, ← decode_eq_write_iff, ← decode_eq_write_iff, h]
  cases hw : isWriteOf w with
  | false =>
    rw [decode_of_read hw, decode_of_read (hdir ▸ hw), Instr.read.injEq] at h
    rw [run_cons_of_read hw, run_cons_of_read (hdir ▸ hw), h]
  | true =>
    rw [decode_of_write hw, decode_of_write (hdir ▸ hw), Instr.write.injEq] at h
    rw [run_cons_of_write hw, run_cons_of_write (hdir ▸ hw), h.1, h.2]

theorem run_append_cons_congr {w v : Word} (h : decode w = decode v) (m : Memory) (us vs : List Word) :
    run m (us ++ w :: vs) = run m (us ++ v :: vs) := by
  rw [run_append, run_append, run_cons_congr h]

theorem length_run_snd (m : Memory) (ws : List Word) :
    (run m ws).2.length = (ws.filter fun w => w &&& 4#32 == 0#32).length := by
  induction ws generalizing m with
  | nil => rfl
  | cons w ws ih =>
    cases hw : isWriteOf w with
    | false =>
      rw [run_cons_of_read hw, List.filter_cons_of_pos (by simp [and_four_eq, hw]), List.length_cons, List.length_cons,
        ih]
    | true => rw [run_cons_of_write hw, List.filter_cons_of_neg (by simp [and_four_eq, hw]), ih]

/-- Settles O29: `Run` by its equation for each kind of word, and words that decode alike may stand for each other. -/
theorem lawsOfTheRunFunction : Obligations.LawsOfTheRunFunction := by
  refine ⟨length_run_snd, run_append, fun m us vs w v h => ?ignoredBits, fun m us vs w v hread h => ?dataOfRead⟩
  case ignoredBits => exact run_append_cons_congr (congrArg Fields.toInstr (decodeFields_eq_iff.2 h)) m us vs
  case dataOfRead =>
    exact run_append_cons_congr (decode_eq_of_read_of_and_eq (isWriteOf_eq_false_iff.2 hread) h) m us vs

end Sys2Proof.Machine
end

/-! ## Reset and the startup fill (R19, R91, R92, R94, R95) -/

section
namespace Sys2Proof.Machine

/-- The cell in row `r` and column `i` starts at their sum, modulo 256. -/
theorem read_filled_row_column {r i : Nat} (hr : r < 128) (hi : i < 256) :
    (State.reset.mem.read (BitVec.ofNat 15 (256 * r + i))).toNat = (r + i) % 256 := by
  have haddr : (BitVec.ofNat 15 (256 * r + i)).toNat = 256 * r + i := by
    rw [BitVec.toNat_ofNat, Nat.mod_eq_of_lt (by omega)]
  rw [State.reset_mem, Memory.read_filled, haddr, fill_toNat, and_add_shiftRight_eq]
  congr 1
  omega

/-- Settles O35: in row `r` the column of the value `b` is `b - r` modulo 256. -/
theorem eachRowOfTheFillHoldsEveryByteOnce : Obligations.EachRowOfTheFillHoldsEveryByteOnce := by
  intro r b hr
  have hb : b.toNat < 256 := b.isLt
  have hcol : (b.toNat + 256 - r) % 256 < 256 := Nat.mod_lt _ (by decide)
  refine ⟨(b.toNat + 256 - r) % 256, hcol, BitVec.eq_of_toNat_eq ?_, fun j hj h => ?_⟩
  · rw [read_filled_row_column hr hcol]
    omega
  · have hsum := read_filled_row_column hr hj
    rw [h] at hsum
    omega

/-- The cells already reached hold the pattern, the others what they held. -/
theorem Memory.read_fillCells (m : Memory) (order : List Addr) (a : Addr) :
    (Memory.fillCells order m).read a = if a ∈ order then fill a.toNat else m.read a := by
  induction order generalizing m with
  | nil => simp [Memory.fillCells]
  | cons b order ih =>
    have hcons : Memory.fillCells (b :: order) m = Memory.fillCells order (m.write b (fill b.toNat)) := rfl
    rw [hcons, ih]
    by_cases hab : a = b
    · subst hab
      simp [Memory.read_write_same]
    · simp [hab, Memory.read_write_other m hab]

/-- Settles O36: the cell-by-cell fill is canonical and reads as the pattern everywhere, which fixes the memory. -/
theorem fillOrderCannotBeObserved : Obligations.FillOrderCannotBeObserved := by
  intro s order hwf hall
  refine Memory.eq_of_read (Memory.fillCells_wf hwf order) Memory.filled_wf fun a => ?_
  exact (Memory.read_fillCells ..).trans (if_pos (hall a))

/-- Settles O37: the first move after reset is the fill. -/
theorem launchStateFollowsReset : Obligations.LaunchStateFollowsReset :=
  ⟨rfl, _, step_of_init (.inl rfl) rfl, fun _ => fill_toNat _, rfl, rfl, rfl, rfl, rfl⟩

/-- Settles O38: `State.resetDevice` puts back every field but the model's own two. -/
theorem resetReestablishesTheResetState : Obligations.ResetReestablishesTheResetState :=
  fun _ _ hturn => step_of_reset hturn

/-- Settles O40: the delivery finds an empty channel, the fill leaves the word there, and the next move is its service. -/
theorem wordDeliveredDuringTheFillWaits : Obligations.WordDeliveredDuringTheFillWaits := by
  intro s w hc hw hturns
  have hdeliver : step s = .next { s with turns := [], wch := [w] } := by
    rw [step_of_deliver hturns, State.deliver_of_room w (by simp [hw, wchHasRoom]), hw, List.nil_append]
  have hfill : step { s with turns := [], wch := [w] } = .next { s with turns := [], wch := [w] }.initialise :=
    step_of_init (.inl rfl) hc
  exact ⟨_, (stepN_succ hdeliver 1).trans (stepN_succ hfill 0), rfl, rfl, rfl, fun _ => rfl,
    step_of_word (.inl rfl) rfl rfl⟩

end Sys2Proof.Machine
end

/-! ## The drawn block and the debug observer (R73 to R76, R89) -/

section
namespace Sys2Proof.Machine

theorem wReady_iff {s : State} : wReady s = true ↔ s.ctrl = .idle := beq_iff_eq

/-- R76: a word is transferred exactly when one waits and the loop is idle, and it is the head. -/
theorem wTransfer_eq_some_iff {s : State} {w : Word} :
    wTransfer s = some w ↔ s.ctrl = .idle ∧ ∃ ws, s.wch = w :: ws := by
  rw [← wReady_iff]
  cases hw : s.wch with
  | nil => simp [wTransfer, wValid, hw]
  | cons v vs => simp [wTransfer, wValid, hw]

/-- R73 to R75: with the arbiter on the read path the port reads the decoded address. -/
theorem portAccess_of_read {f : Fields} (h : f.isWrite = false) (i : Addr) (m : Memory) :
    portAccess (busyState f) i f m = (m, some (m.read f.address)) := by
  simp [portAccess, busyState, ramPort, addressMux, writeEnable, arbiter, h]

/-- R73 to R75: with the arbiter on the write path the port stores the decoded data at the decoded address. -/
theorem portAccess_of_write {f : Fields} (h : f.isWrite = true) (i : Addr) (m : Memory) :
    portAccess (busyState f) i f m = (m.write f.address f.data, none) := by
  simp [portAccess, busyState, ramPort, addressMux, writeEnable, writeData, arbiter, h]

theorem drawnService_of_read {s : State} {w : Word} (hw : wTransfer s = some w) (hread : isWriteOf w = false) :
    drawnService s = some (s.mem, some (s.mem.read (addressOf w))) := by
  rw [drawnService, hw, Option.map_some, portAccess_of_read hread, decodeFields_address]

theorem drawnService_of_write {s : State} {w : Word} (hw : wTransfer s = some w) (hwrite : isWriteOf w = true) :
    drawnService s = some (s.mem.write (addressOf w) (dataOf w), none) := by
  rw [drawnService, hw, Option.map_some, portAccess_of_write hwrite, decodeFields_address, decodeFields_data]

/-- The step of a service leaves the memory of the drawn block's access and sends what its response port carries. -/
theorem step_agrees_with_drawnService {s t : State} {w : Word} (hm : s.coreMoves) (hw : wTransfer s = some w)
    (h : step s = .next t) :
    (∃ r, drawnService s = some (t.mem, r)) ∧ t.resp = s.resp ++ (rTransfer s).toList := by
  obtain ⟨hc, ws, hwch⟩ := wTransfer_eq_some_iff.1 hw
  rw [step_of_word hm hc hwch] at h
  cases hdir : isWriteOf w with
  | false =>
    rw [decode_of_read hdir] at h
    rw [rTransfer, drawnService_of_read hw hdir, exec_read_mem h]
    exact ⟨⟨_, rfl⟩, (exec_read_resp h :)⟩
  | true =>
    rw [decode_of_write hdir, exec_write] at h
    cases h
    rw [rTransfer, drawnService_of_write hw hdir]
    exact ⟨⟨_, rfl⟩, (List.append_nil _).symm⟩

/-- Settles O41: the service by `step_agrees_with_drawnService`; the other accesses by the port's control state. -/
theorem drawnBlockMakesTheSameAccess : Obligations.DrawnBlockMakesTheSameAccess := by
  refine ⟨fun s t w ws hm hc hwch h => ?service, fun i f m => rfl, fun i f m => rfl,
    fun s => ⟨wReady_iff, fun hc => ?busy⟩⟩
  case service =>
    have hw := wTransfer_eq_some_iff.2 ⟨hc, ws, hwch⟩
    exact ⟨hw, step_agrees_with_drawnService hm hw h⟩
  case busy => exact Option.eq_none_iff_forall_ne_some.2 fun w hw => hc (wTransfer_eq_some_iff.1 hw).1

/-- Settles O42: the record is made from the word transferred, which is the word serviced. -/
theorem debugObserverTellsTheService : Obligations.DebugObserverTellsTheService := by
  refine ⟨fun s => rfl, fun s t r hm hr h => ?_⟩
  obtain ⟨w, hw, rfl⟩ := Option.map_eq_some_iff.1 hr
  obtain ⟨hc, ws, hwch⟩ := wTransfer_eq_some_iff.1 hw
  have hexec := (step_of_word hm hc hwch).symm.trans h
  obtain ⟨-, hrest, -⟩ := exec_frame hexec
  obtain ⟨-, hresp⟩ := step_agrees_with_drawnService hm hw h
  exact ⟨w, ws, hwch, hrest, rfl, rfl, rfl, hresp⟩

end Sys2Proof.Machine
end
